-- ==== Sys2Proof/Word.lean ====
section
/-! DEFINITION. The word types of the machine: what the spec treats as bits. -/

namespace Sys2Proof

/-- One byte of program memory (20_memory.md R32). -/
abbrev Byte := BitVec 8

/-- The 32-bit instruction word of the default `WordLayout` (30_encoding.md R48). -/
abbrev Word := BitVec 32

/-- The contents of a general register or of `pc` (10_state.md R11, R13). -/
abbrev DWord := BitVec 64

/-- A 64-bit virtual address (20_memory.md R31). -/
abbrev Addr := BitVec 64

/-- A general register number, `0` to `31` (10_state.md R11). -/
abbrev Reg := BitVec 5

/-- The 128-bit operand `x[t2]:x[t]` (40_tlbip_operation.md R60). -/
abbrev Operand := BitVec 128

end Sys2Proof
end

