-- ==== Sys2Proof/Machine/Vocabulary.lean ====
section
/-! DEFINITION. The names and records the spec speaks in: Exception levels, Security states, translation regimes, TLB
entries, invalidation records, in-flight accesses, and whose turn it is. Plain data, no behaviour. -/

namespace Sys2Proof

/-- The name of a PE: its position in the list of PEs (10_state.md R10; log 16). -/
abbrev PEId := Nat

/-- The four values of `PSTATE.EL` (10_state.md R14). -/
inductive EL where
  | el0 | el1 | el2 | el3
  deriving DecidableEq, Repr, Inhabited

/-- A Security state is the value that indicates it: `SCR_EL3.NS` without FEAT_RME, `SCR_EL3.NSE:SCR_EL3.NS` with it
(10_state.md R19). DESIGN CHOICE (log 13): both forms are values whatever FEAT_RME is. -/
inductive SecState where
  | ofNS (ns : BitVec 1)
  | ofNSENS (nseNs : BitVec 2)
  deriving DecidableEq, Repr, Inhabited

/-- What `VMID[]` yields, with the distinguished `VMID_NONE`; the source gives no width (10_state.md R21; log 12). -/
inductive VMIDValue where
  | vmidNone
  | vmid (v : Nat)
  deriving DecidableEq, Repr, Inhabited

/-- Translation regimes. Only `Regime_EL10` and `Regime_EL20` are named; others may exist (10_state.md R23). -/
inductive Regime where
  | el10
  | el20
  | other (n : Nat)
  deriving DecidableEq, Repr, Inhabited

/-- The three translation granules (20_memory.md R36). -/
inductive Granule where
  | kb4 | kb16 | kb64
  deriving DecidableEq, Repr, Inhabited

/-- The width of a translation table entry (20_memory.md R36). -/
inductive DescBits where
  | bits64 | bits128
  deriving DecidableEq, Repr, Inhabited

/-- An inclusive interval of 64-bit virtual addresses; empty when `hi < lo`. -/
structure AddrInterval where
  lo : Addr
  hi : Addr
  deriving DecidableEq, Repr, Inhabited

/-- A TLB entry: exactly the properties the source tests (10_state.md R23). `range` is a set of addresses, held as a
list of intervals, so every set of 64-bit addresses can be written (log 15). -/
structure TlbEntry where
  stage1 : Bool
  combined : Bool
  descBits : DescBits
  range : List AddrInterval
  final : Bool
  global : Bool
  asid : BitVec 16
  regime : Regime
  secstate : SecState
  vmid : VMIDValue
  granule : Granule
  level : Int
  deriving DecidableEq, Repr, Inhabited

/-- The fourth argument of `AArch64.TLBIP_VA` (40_tlbip_operation.md R71). -/
inductive Shareability where
  | nsh | ish
  deriving DecidableEq, Repr, Inhabited

/-- The fifth argument, the same in every call (40_tlbip_operation.md R71). -/
inductive TlbiLevel where
  | any
  deriving DecidableEq, Repr, Inhabited

/-- The sixth argument: which accesses completion waits for (40_tlbip_operation.md R71, R81, R82). -/
inductive TlbiAttr where
  | allAttr | excludeXS
  deriving DecidableEq, Repr, Inhabited

/-- The seven arguments of `AArch64.TLBIP_VA` as one record (40_tlbip_operation.md R71). -/
structure TlbiRecord where
  security : SecState
  regime : Regime
  vmid : VMIDValue
  shareability : Shareability
  level : TlbiLevel
  attr : TlbiAttr
  op : Operand
  deriving DecidableEq, Repr, Inhabited

/-- An issued invalidation that is not yet complete: `(issuer, rec, applied)` (10_state.md R25). -/
structure Invalidation where
  issuer : PEId
  record : TlbiRecord
  applied : List PEId
  deriving DecidableEq, Repr, Inhabited

/-- A memory access in flight: who made it, the TLB entries it was translated with, its XS attribute (10_state.md
R24). -/
structure Access where
  pe : PEId
  used : List TlbEntry
  xs : BitVec 1
  deriving DecidableEq, Repr, Inhabited

/-- Which agent makes the next step (10_state.md R24, 40_tlbip_operation.md R84 to R86, 60_exceptions.md R120; log 8).
A turn that names a step which is not enabled changes nothing (log 9). -/
inductive Turn where
  /-- PE `p` executes the instruction at its `pc`. -/
  | execute (p : PEId)
  /-- The invalidation agent applies element `i` of `Pending` to PE `q` (R85). -/
  | apply (i : Nat) (q : PEId)
  /-- The invalidation agent completes element `i` of `Pending` (R86). -/
  | complete (i : Nat)
  /-- Access `j` of `InFlight` completes and leaves it (R24). -/
  | accessDone (j : Nat)
  deriving DecidableEq, Repr, Inhabited

end Sys2Proof
end

