-- ==== Sys2Proof/Config.lean ====
section
/-! DEFINITION. What an implementation fixes (the parameters of 00_scope.md R4) and the free values, which nothing in
Lean can evaluate. -/

namespace Sys2Proof

/-- `ASIDBits`: the implementation supports 8 or 16 bits of ASID (00_scope.md R4, 40_tlbip_operation.md R65). -/
inductive AsidBits where
  | bits8 | bits16
  deriving DecidableEq, Repr, Inhabited

/-- What a non-zero RES0 bit of the operand obliges (40_tlbip_operation.md R70). -/
inductive Res0Policy where
  | nothingRequired
  | ignore
  deriving DecidableEq, Repr, Inhabited

/-- The parameter `WordLayout`: where the five encoding fields and the register number sit in the 32-bit word, and which
bits of it are fixed (30_encoding.md R48). DESIGN CHOICE (log 21): the spec leaves the form of a layout open; here the word
is 32 bits, each field is one contiguous run of bits in order, and `…Lo` is the position of its lowest bit, so a layout
that splits or reorders a field cannot be written. -/
structure WordLayout where
  fixedMask : Word
  fixedBits : Word
  op0Lo : Nat
  op1Lo : Nat
  crnLo : Nat
  crmLo : Nat
  op2Lo : Nat
  rtLo : Nat
  deriving DecidableEq, Repr, Inhabited

/-- The parameter `PairRule`: place `t` of the table holds the `t2` that goes with register `t`, or nothing where the
word is refused (30_encoding.md R49). -/
abbrev PairRule := List (Option Reg)

/-- The parameters of 00_scope.md R4. They are configuration: carried beside the state so that a claim about every state
quantifies over them, and changed by no step (log 1). `PEs` is the list of PEs in the state; the abstract `EL2Enabled`,
`IsHCRXEL2Enabled` and `VMID[]` are read from the PE (log 11). -/
structure Config where
  featD128 : Bool
  featXS : Bool
  featTTL : Bool
  featLPA2 : Bool
  featFGT : Bool
  featHCX : Bool
  featRME : Bool
  haveEL2 : Bool
  haveEL3 : Bool
  asidBits : AsidBits
  /-- The Security state when EL3 is not implemented (10_state.md R19). DESIGN CHOICE (log 13): of either form, whatever
  `featRME` is. -/
  secStateNoEL3 : SecState
  /-- Place `p` lists PEs of `InnerShareable(p)`; `p` itself always belongs to it (40_tlbip_operation.md R78; log 16). -/
  innerShareable : List (List PEId)
  wordLayout : WordLayout
  pairRule : PairRule
  res0Policy : Res0Policy
  ttlNonLeafRequired : Bool
  combinedS1S2Required : Bool
  tlbiAtomic : Bool
  deriving DecidableEq, Repr

/-- FREE VALUE. Whose turn it is after the step made at counter `n` (40_tlbip_operation.md R85, R86; log 8). -/
opaque Config.freeTurn : Nat → Turn

/-- FREE VALUE. Whether, in the step made at counter `n`, an entry that is not required to go stays in the TLB of PE `q`
(40_tlbip_operation.md R79; log 10). -/
opaque Config.freeKeeps : Nat → PEId → TlbEntry → Bool

/-- FREE VALUE. What the TLB of a PE holds at the start (10_state.md R27; log 6). -/
opaque Config.freeResetTlb : PEId → List TlbEntry

/-- FREE VALUE. The memory accesses in flight at the start (10_state.md R27; log 6). -/
opaque Config.freeResetInFlight : List Access

end Sys2Proof
end

