-- ==== Sys2Proof/Syntax.lean ====
section
/-! DEFINITION. The instructions: one constructor per row of spec/opcode_table.json. An instruction is the decoded tuple
(variant, `t`, `t2`) of 92_eei_decisions.md D1; `t` and `t2` are the numbers of `<Xt>` and `<Xt2>`. -/

namespace Sys2Proof

inductive Instr where
  /-- `TLBIP VAE1{, <Xt>, <Xt2>}` (41_tlbip_vae1.md R90). -/
  | tlbipVae1 (t t2 : Reg)
  /-- `TLBIP VAE1NXS{, <Xt>, <Xt2>}` (42_tlbip_vae1nxs.md R100). -/
  | tlbipVae1nxs (t t2 : Reg)
  deriving DecidableEq, Repr

end Sys2Proof
end

