-- ==== Sys2Proof/WellFormed.lean ====
section
/-! DEFINITION. When an instruction term is one a word can encode: its two register numbers are a pair of the
`PairRule`. -/

namespace Sys2Proof

/-- The `t2` that `PairRule` gives register `t`, if any (30_encoding.md R49). -/
def pairOf (rule : PairRule) (t : Reg) : Option Reg := (rule[t.toNat]?).join

/-- `t2` follows from `t` as `PairRule` says (30_encoding.md R49). -/
def Instr.wellFormed (rule : PairRule) : Instr → Bool
  | .tlbipVae1 t t2 => pairOf rule t == some t2
  | .tlbipVae1nxs t t2 => pairOf rule t == some t2

end Sys2Proof
end

