-- ==== Sys2Proof/Decode.lean ====
section
/-! DEFINITION. Decoding, total on any bytes and rejecting by name, and the encoder. What the source fixes (the five field
values, R46 and R47) is kept apart from what it does not (the word layout, R48, and the register pair, R49). -/

namespace Sys2Proof

/-- The two operations of the page. -/
inductive Variant where
  | vae1 | vae1nxs
  deriving DecidableEq, Repr

/-- The five fields of the System instruction encoding space, with their widths (30_encoding.md R45). -/
structure SysFields where
  op0 : BitVec 2
  op1 : BitVec 3
  crn : BitVec 4
  crm : BitVec 4
  op2 : BitVec 3
  deriving DecidableEq, Repr

/-- The field values that select a variant (30_encoding.md R46, R47). -/
def fieldsOf : Variant → SysFields
  | .vae1 => { op0 := 0b01#2, op1 := 0b000#3, crn := 0b1000#4, crm := 0b0111#4, op2 := 0b001#3 }
  | .vae1nxs => { op0 := 0b01#2, op1 := 0b000#3, crn := 0b1001#4, crm := 0b0111#4, op2 := 0b001#3 }

/-- Which of the two instructions the fields select, if any (30_encoding.md R46, R47, R54). -/
def variantOf (f : SysFields) : Option Variant :=
  if f = fieldsOf .vae1 then some .vae1
  else if f = fieldsOf .vae1nxs then some .vae1nxs
  else none

/-- The default `WordLayout` (30_encoding.md R48, PRESUMED: log 21): bits [31:22] are `1101010101`, bit 21 is `0`, then
`op0` [20:19], `op1` [18:16], `CRn` [15:12], `CRm` [11:8], `op2` [7:5], `Rt` [4:0]. -/
def WordLayout.default : WordLayout :=
  { fixedMask := 0xFFE00000#32, fixedBits := 0xD5400000#32
    op0Lo := 19, op1Lo := 16, crnLo := 12, crmLo := 8, op2Lo := 5, rtLo := 0 }

/-- The default `PairRule` at one register number (30_encoding.md R49, PRESUMED: log 22). -/
def defaultPairOf (t : Reg) : Option Reg :=
  if t = 31#5 then some 31#5 else if t.getLsbD 0 then none else some (t + 1#5)

/-- The default `PairRule` as the table the configuration holds. -/
def PairRule.default : PairRule := (List.range 32).map fun n => defaultPairOf (BitVec.ofNat 5 n)

/-- The five fields as the layout places them. -/
def sysFields (l : WordLayout) (w : Word) : SysFields :=
  { op0 := w.extractLsb' l.op0Lo 2, op1 := w.extractLsb' l.op1Lo 3, crn := w.extractLsb' l.crnLo 4
    crm := w.extractLsb' l.crmLo 4, op2 := w.extractLsb' l.op2Lo 3 }

/-- The register number field as the layout places it. -/
def rtField (l : WordLayout) (w : Word) : Reg := w.extractLsb' l.rtLo 5

/-- Why bytes are not one of the two instructions. -/
inductive DecodeReject where
  /-- Fewer than four bytes were given. -/
  | tooShort
  /-- The word is another instruction, of which the spec says nothing (30_encoding.md R54). -/
  | outsideSpec (w : Word)
  /-- The fields select an instruction and `PairRule` gives `Rt` no partner (30_encoding.md R49). -/
  | unpairedRegister (w : Word)
  deriving DecidableEq, Repr

/-- The instruction term of a variant and its two register numbers. -/
def mkInstr : Variant → Reg → Reg → Instr
  | .vae1, t, t2 => .tlbipVae1 t t2
  | .vae1nxs, t, t2 => .tlbipVae1nxs t t2

/-- Decode one 32-bit word (30_encoding.md R45 to R49, R54). -/
def decodeWord (l : WordLayout) (rule : PairRule) (w : Word) : Except DecodeReject Instr :=
  if w &&& l.fixedMask = l.fixedBits then
    match variantOf (sysFields l w) with
    | none => .error (.outsideSpec w)
    | some v =>
      match pairOf rule (rtField l w) with
      | none => .error (.unpairedRegister w)
      | some t2 => .ok (mkInstr v (rtField l w) t2)
  else .error (.outsideSpec w)

/-- The word four bytes make, the byte at the lowest address least significant (20_memory.md R32; log 19). -/
def wordOfBytes (b0 b1 b2 b3 : Byte) : Word := b3 ++ b2 ++ b1 ++ b0

/-- The four bytes of a word, lowest address first (20_memory.md R32; log 19). -/
def bytesOfWord (w : Word) : List Byte :=
  [w.extractLsb' 0 8, w.extractLsb' 8 8, w.extractLsb' 16 8, w.extractLsb' 24 8]

/-- Decode the instruction at the head of a list of bytes and give back the bytes after it. -/
def decode (l : WordLayout) (rule : PairRule) : List Byte → Except DecodeReject (Instr × List Byte)
  | b0 :: b1 :: b2 :: b3 :: rest =>
    match decodeWord l rule (wordOfBytes b0 b1 b2 b3) with
    | .ok i => .ok (i, rest)
    | .error e => .error e
  | _ => .error .tooShort

/-- The variant of an instruction. -/
def Instr.variant : Instr → Variant
  | .tlbipVae1 _ _ => .vae1
  | .tlbipVae1nxs _ _ => .vae1nxs

/-- The number of `<Xt>`. -/
def Instr.rt : Instr → Reg
  | .tlbipVae1 t _ => t
  | .tlbipVae1nxs t _ => t

/-- The number of `<Xt2>`. -/
def Instr.rt2 : Instr → Reg
  | .tlbipVae1 _ t2 => t2
  | .tlbipVae1nxs _ t2 => t2

/-- A field's bits, placed at its position in the word. -/
def placeField {n : Nat} (v : BitVec n) (lo : Nat) : Word := v.setWidth 32 <<< lo

/-- The word of an instruction (30_encoding.md R46 to R48). `t2` is not encoded: `PairRule` gives it back. -/
def encodeWord (l : WordLayout) (i : Instr) : Word :=
  let f := fieldsOf i.variant
  l.fixedBits ||| placeField f.op0 l.op0Lo ||| placeField f.op1 l.op1Lo ||| placeField f.crn l.crnLo
    ||| placeField f.crm l.crmLo ||| placeField f.op2 l.op2Lo ||| placeField i.rt l.rtLo

/-- The bytes of an instruction, lowest address first. -/
def encode (l : WordLayout) (i : Instr) : List Byte := bytesOfWord (encodeWord l i)

/-- What the decoder, under the default layout and pair rule, reads from an instruction whose bits are `w`, laid out in
memory as the fetch finds it. Both rows have 32 bits; bits above `nbits` are zero. -/
def decodeTableWord (nbits w : Nat) : Option Instr :=
  match decode WordLayout.default PairRule.default (bytesOfWord (BitVec.ofNat 32 (w % 2 ^ nbits))) with
  | .ok (i, _) => some i
  | .error _ => none

end Sys2Proof
end

