-- ==== Sys2Proof/Machine/Defaults.lean ====
section
/-! DEFINITION. The configuration the machine starts with, and which entries a TLB can hold. -/

namespace Sys2Proof.Machine

/-- The configuration after reset: that of 95_test_vectors.md section 3, with FEAT_LPA2 and FEAT_RME not implemented, 16
bits of ASID and two PEs in one Inner Shareable domain (DESIGN CHOICE: log 2). -/
def resetConfig : Config :=
  { featD128 := true, featXS := true, featTTL := true, featLPA2 := false, featFGT := true, featHCX := true
    featRME := false, haveEL2 := true, haveEL3 := true, asidBits := .bits16, secStateNoEL3 := .ofNS 0#1
    innerShareable := [[0, 1], [0, 1]], wordLayout := WordLayout.default, pairRule := PairRule.default
    res0Policy := .nothingRequired, ttlNonLeafRequired := false, combinedS1S2Required := false, tlbiAtomic := false }

/-- An entry a TLB can hold: its range is not empty (10_state.md R23), and its ASID has a zero upper byte where the
implementation has 8 bits of ASID (40_tlbip_operation.md R65; log 32). DESIGN CHOICE (log 13): the form of its Security
state is not tied to FEAT_RME. -/
def entryWf (c : Config) (e : TlbEntry) : Bool :=
  e.range.any (fun r => decide (r.lo ≤ r.hi))
    && (c.asidBits == .bits16 || e.asid.extractLsb' 8 8 == 0#8)

end Sys2Proof.Machine
end

