-- ==== Sys2Proof/Machine/State.lean ====
section
/-! DEFINITION. The state of the machine as plain data, the reasons a step stops, and the state after reset. -/

namespace Sys2Proof.Machine

/-- `HCR_EL2`, the fields read (10_state.md R16). -/
structure HcrEl2 where
  ttlb : BitVec 1
  fb : BitVec 1
  e2h : BitVec 1
  tge : BitVec 1
  deriving DecidableEq, Repr

/-- `SCR_EL3`, the fields read (10_state.md R17). -/
structure ScrEl3 where
  ns : BitVec 1
  nse : BitVec 1
  fgten : BitVec 1
  deriving DecidableEq, Repr

/-- `HFGITR_EL2`, the field read (10_state.md R18). -/
structure HfgitrEl2 where
  tlbivae1 : BitVec 1
  deriving DecidableEq, Repr

/-- `HCRX_EL2`, the fields read (10_state.md R20). -/
structure HcrxEl2 where
  fnxs : BitVec 1
  fgtnxs : BitVec 1
  deriving DecidableEq, Repr

/-- One PE (10_state.md R10): its general registers, `pc`, `PSTATE.EL`, control fields and TLB. `vmidReads`,
`el2EnabledReads` and `hcrxEl2EnabledReads` are whatever `VMID[]`, `EL2Enabled()` and `IsHCRXEL2Enabled()` read
(10_state.md R21, R26; log 11). The TLB is a set, held as a list without repeats (10_state.md R22; log 37). -/
structure PE where
  x : Vector DWord 31
  pc : Addr
  el : EL
  hcrEl2 : HcrEl2
  scrEl3 : ScrEl3
  hfgitrEl2 : HfgitrEl2
  hcrxEl2 : HcrxEl2
  vmidReads : VMIDValue
  el2EnabledReads : Bool
  hcrxEl2EnabledReads : Bool
  tlb : List TlbEntry
  deriving DecidableEq, Repr

/-- Program memory: bytes by address, addresses strictly rising. A byte that is not listed has no value (log 19). -/
abbrev Memory := List Host.Cell

/-- The whole machine. `cfg` is the configuration, changed by no step (log 1); `turn` names the agent that makes the next
step and `tick` is the counter the free values are applied to: both are the model's own (log 8). -/
structure State where
  cfg : Config
  pes : List PE
  mem : Memory
  pending : List Invalidation
  inFlight : List Access
  turn : Turn
  tick : Nat
  deriving DecidableEq, Repr

/-- Why the machine stops with a fault. -/
inductive Fault where
  /-- The source's `UNDEFINED;`: raised by both instructions at EL0 or when a feature they need is absent
  (60_exceptions.md R110, R111). No state changes. Safe: the model stops where hardware enters a handler. -/
  | undefined
  /-- The source's `AArch64.SystemAccessTrap(target, code)`: raised by both instructions at EL1 (60_exceptions.md R110,
  R112). No state changes. Safe: the model stops where hardware enters a handler. -/
  | systemAccessTrap (target : EL) (code : Nat)
  /-- Raised by the fetch when one of the four bytes at `pc` has no value (log 19). Safe: no byte is invented. -/
  | fetchUnwritten (pc : Addr)
  deriving DecidableEq, Repr

/-- Why the model gives no meaning. -/
inductive Refusal where
  /-- Raised by an arm of `exec` whose instruction has no meaning yet; no arm raises it. Safe. -/
  | notModelled (mnemonic : String)
  /-- Raised by the fetch: the word is another instruction, of which the spec says nothing (30_encoding.md R54). Safe. -/
  | outsideSpec (w : Word)
  /-- Raised by the fetch: `PairRule` gives the word's `Rt` no partner (30_encoding.md R49). Safe. -/
  | unpairedRegister (w : Word)
  /-- Raised by the fetch: `pc` is not a multiple of 4 (10_state.md R13). Safe. -/
  | misalignedPc (pc : Addr)
  /-- Raised by a meaning called in a state whose turn is not that of an existing PE; no step does so. Safe. -/
  | noExecutingPE
  deriving DecidableEq, Repr

/-- What a step, or an instruction, answers. -/
abbrev Result := Host.Outcome State Fault Refusal

/-- A PE after reset. The spec gives no value (10_state.md R27): registers, `pc` and control fields are zero (DESIGN
CHOICE: log 3, log 4), `PSTATE.EL` is EL3 (PRESUMED: log 5), the TLB is any well-formed set (log 6). -/
def PE.reset (p : PEId) : PE :=
  { x := Vector.replicate 31 0#64, pc := 0#64, el := .el3
    hcrEl2 := { ttlb := 0#1, fb := 0#1, e2h := 0#1, tge := 0#1 }
    scrEl3 := { ns := 0#1, nse := 0#1, fgten := 0#1 }
    hfgitrEl2 := { tlbivae1 := 0#1 }
    hcrxEl2 := { fnxs := 0#1, fgtnxs := 0#1 }
    vmidReads := .vmid 0, el2EnabledReads := false, hcrxEl2EnabledReads := false
    tlb := ((Config.freeResetTlb p).filter (entryWf resetConfig)).dedup }

/-- `InFlight` after reset: any set of accesses by PEs of the machine that used entries a TLB can hold (10_state.md R24,
R27; log 6). -/
def resetInFlight : List Access :=
  (Config.freeResetInFlight.filter fun a => decide (a.pe < 2)).map fun a =>
    { a with used := a.used.filter (entryWf resetConfig) }

/-- The machine right after reset (10_state.md R27, 70_reset_and_hazards.md R130): `Pending` is empty (log 7), `InFlight`
is any set (log 6), no program is placed (log 20), and PE 0 moves first (DESIGN CHOICE: log 8). -/
def State.reset : State :=
  { cfg := resetConfig, pes := [PE.reset 0, PE.reset 1], mem := [], pending := []
    inFlight := resetInFlight, turn := .execute 0, tick := 0 }

end Sys2Proof.Machine
end

