-- ==== Sys2Proof/Machine/Ops.lean ====
section
/-! DEFINITION. The named operations: general registers, program memory, one PE of the machine, the bookkeeping of
invalidations, and the two ways an instruction stops. -/

namespace Sys2Proof.Machine

/-! ## General registers -/

/-- `x[i]`: register 31 is not a register and reads as zero (10_state.md R11; log 23). -/
def PE.readX (pe : PE) (i : Reg) : DWord :=
  if h : i.toNat < 31 then pe.x[i.toNat] else 0#64

/-- `x[i] <- v`: a write to register 31 is discarded (10_state.md R11; log 23). No instruction of the spec writes a
register (R12): a launch premise does (70_reset_and_hazards.md R131). -/
def PE.writeX (pe : PE) (i : Reg) (v : DWord) : PE :=
  if h : i.toNat < 31 then { pe with x := pe.x.set i.toNat v } else pe

/-! ## The other pieces of a PE that a step changes -/

def PE.setPc (pe : PE) (pc : Addr) : PE := { pe with pc := pc }

def PE.setTlb (pe : PE) (tlb : List TlbEntry) : PE := { pe with tlb := tlb }

/-- `pc <- pc + 4` (10_state.md R13; wrap-around: log 25). -/
def PE.advancePc (pe : PE) : PE := pe.setPc (pe.pc + 4#64)

/-! ## Program memory: a list of cells, addresses strictly rising -/

/-- The canonical form: addresses strictly rise and lie in the 64-bit address space. No listed value can equal what an
unlisted address reads as, since that is no value (log 19). -/
def Memory.wf (m : Memory) : Bool :=
  decide (m.Pairwise fun c d => c.1 < d.1) && m.all fun c => decide (c.1 < 2 ^ 64)

/-- The byte at a cell key, if one was written. -/
def Memory.lookup : Memory → Nat → Option Byte
  | [], _ => none
  | (k, b) :: rest, a => if k = a then some b else Memory.lookup rest a

/-- The byte at an address, if one was written. -/
def Memory.read (m : Memory) (a : Addr) : Option Byte := Memory.lookup m a.toNat

/-- Put a byte at a cell key, keeping the keys in rising order. -/
def Memory.insert : Memory → Nat → Byte → Memory
  | [], a, b => [(a, b)]
  | (k, c) :: rest, a, b =>
    if a < k then (a, b) :: (k, c) :: rest
    else if a = k then (a, b) :: rest
    else (k, c) :: Memory.insert rest a b

/-- Write one byte. -/
def Memory.write (m : Memory) (a : Addr) (b : Byte) : Memory := Memory.insert m a.toNat b

/-- Write bytes at rising addresses, the first at `a`. -/
def Memory.writeBytes : Memory → Addr → List Byte → Memory
  | m, _, [] => m
  | m, a, b :: rest => Memory.writeBytes (Memory.write m a b) (a + 1#64) rest

/-- Read `n` bytes at rising addresses, the first at `a`; none if one of them has no value. -/
def Memory.readBytes (m : Memory) : Addr → Nat → Option (List Byte)
  | _, 0 => some []
  | a, n + 1 =>
    match Memory.read m a, Memory.readBytes m (a + 1#64) n with
    | some b, some rest => some (b :: rest)
    | _, _ => none

/-! ## One PE of the machine -/

/-- Replace what PE `p` is by `f` of it; nothing changes where there is no such PE. -/
def State.modifyPE (s : State) (p : PEId) (f : PE → PE) : State := { s with pes := s.pes.modify p f }

def State.setMem (s : State) (m : Memory) : State := { s with mem := m }

def State.setPending (s : State) (l : List Invalidation) : State := { s with pending := l }

def State.setInFlight (s : State) (l : List Access) : State := { s with inFlight := l }

def State.setTurn (s : State) (t : Turn) : State := { s with turn := t }

/-- The end of a step: the next turn is a free value of the counter, and the counter advances (log 8). -/
def State.nextTurn (s : State) : State := { s with turn := Config.freeTurn s.tick, tick := s.tick + 1 }

/-- The PE whose turn it is to execute, with its name. -/
def State.executing (s : State) : Option (PEId × PE) :=
  match s.turn with
  | .execute p => (s.pes[p]?).map fun pe => (p, pe)
  | _ => none

/-- Run `f` on the executing PE. -/
def whenExecuting (s : State) (f : PEId → PE → Result) : Result :=
  match s.executing with
  | some (p, pe) => f p pe
  | none => .refused .noExecutingPE

/-! ## How an instruction stops: the one place where an exception is raised

The spec gives both exceptions an outcome and no entry: nothing is saved, no state changes, `pc` stays
(60_exceptions.md R111, R112, R114, R115; log 17, log 18). A return from exception is not in the source (R116). -/

/-- `raise Undefined()` (60_exceptions.md R111). -/
def raiseUndefined : Result := .fault .undefined

/-- `raise SystemAccessTrap(target, code)` (60_exceptions.md R112). -/
def raiseSystemAccessTrap (target : EL) (code : Nat) : Result := .fault (.systemAccessTrap target code)

/-- Pass the turn on after a step that has a next state. -/
def passTurn : Result → Result
  | .next t => .next t.nextTurn
  | .fault f => .fault f
  | .refused r => .refused r

end Sys2Proof.Machine
end

