-- ==== Sys2Proof/Machine/Flags.lean ====
section
/-! DEFINITION. The machine has no status flag, condition code or predicate (10_state.md R15). What the instructions test
in their place is here: the control fields and the conditions built from them (10_state.md section 6, 60_exceptions.md
R110, R118). -/

namespace Sys2Proof.Machine

/-- `EL2Enabled()`: abstract, but it implies `HaveEL(EL2)` (60_exceptions.md R119; log 11). -/
def el2Enabled (c : Config) (pe : PE) : Bool := c.haveEL2 && pe.el2EnabledReads

/-- `IsHCRXEL2Enabled()`: abstract (00_scope.md R4; log 11). -/
def hcrxEl2Enabled (pe : PE) : Bool := pe.hcrxEl2EnabledReads

/-- `VMID[]`: abstract (10_state.md R21; log 11). -/
def currentVMID (pe : PE) : VMIDValue := pe.vmidReads

/-- `SecurityStateAtEL(el)`: the same value for EL1 and EL2 (10_state.md R19). -/
def securityStateAtEL (c : Config) (pe : PE) (_el : EL) : SecState :=
  if c.haveEL3 then
    (if c.featRME then .ofNSENS (pe.scrEl3.nse ++ pe.scrEl3.ns) else .ofNS pe.scrEl3.ns)
  else c.secStateNoEL3

/-- `HCR_EL2.<E2H, TGE>` as read: `00` where EL2 is not implemented (10_state.md R16; log 14). -/
def hcrE2HTGE (c : Config) (pe : PE) : BitVec 2 :=
  if c.haveEL2 then pe.hcrEl2.e2h ++ pe.hcrEl2.tge else 0b00#2

/-- The trap of both variants through `HCR_EL2.TTLB` (60_exceptions.md R110, R118). -/
def ttlbTrap (c : Config) (pe : PE) : Bool := el2Enabled c pe && pe.hcrEl2.ttlb == 1#1

/-- The fine-grained trap of `TLBIP VAE1` through `HFGITR_EL2.TLBIVAE1` (60_exceptions.md R110). -/
def fineGrainedTrap (c : Config) (pe : PE) : Bool :=
  el2Enabled c pe && c.featFGT && (!c.haveEL3 || pe.scrEl3.fgten == 1#1) && pe.hfgitrEl2.tlbivae1 == 1#1

/-- The fine-grained trap of `TLBIP VAE1NXS`: two more conjuncts (60_exceptions.md R110). -/
def fineGrainedTrapNXS (c : Config) (pe : PE) : Bool :=
  el2Enabled c pe && c.featFGT && (!c.haveEL3 || pe.scrEl3.fgten == 1#1)
    && c.featHCX && (!hcrxEl2Enabled pe || pe.hcrxEl2.fgtnxs == 0#1)
    && pe.hfgitrEl2.tlbivae1 == 1#1

/-- Which PEs an execution at EL1 reaches: `HCR_EL2.FB` forces the broadcast (60_exceptions.md R118). -/
def shareabilityAtEL1 (c : Config) (pe : PE) : Shareability :=
  if el2Enabled c pe && pe.hcrEl2.fb == 1#1 then .ish else .nsh

/-- Which accesses `TLBIP VAE1` waits for at EL1: `HCRX_EL2.FnXS` excludes XS accesses (60_exceptions.md R118). -/
def attrAtEL1 (c : Config) (pe : PE) : TlbiAttr :=
  if c.featXS && c.featHCX && hcrxEl2Enabled pe && pe.hcrxEl2.fnxs == 1#1 then .excludeXS else .allAttr

end Sys2Proof.Machine
end

