-- ==== Sys2Proof/Machine/Operands.lean ====
section
/-! DEFINITION. The 128-bit operand and its fields (40_tlbip_operation.md section 1). -/

namespace Sys2Proof.Machine

/-- `op = x[t2]:x[t]` (30_encoding.md R50); `x[t2]` is the high half (00_scope.md R8; log 24). -/
def operandOf (pe : PE) (t t2 : Reg) : Operand := pe.readX t2 ++ pe.readX t

/-- `op[127:108]`, RES0 (40_tlbip_operation.md R61). -/
def opRes0High (op : Operand) : BitVec 20 := op.extractLsb' 108 20

/-- `op.VA = op[107:64]`, bits [55:12] of the virtual address (R60, R62). -/
def opVA (op : Operand) : BitVec 44 := op.extractLsb' 64 44

/-- `op.ASID = op[63:48]` (R60, R64). -/
def opASID (op : Operand) : BitVec 16 := op.extractLsb' 48 16

/-- `op.TTL = op[47:44]` (R60, R66). -/
def opTTL (op : Operand) : BitVec 4 := op.extractLsb' 44 4

/-- `op[43:0]`, RES0 (R69). -/
def opRes0Low (op : Operand) : BitVec 44 := op.extractLsb' 0 44

/-- `TTL<3:2>`. -/
def ttlHigh (ttl : BitVec 4) : BitVec 2 := ttl.extractLsb' 2 2

/-- `TTL<1:0>`. -/
def ttlLow (ttl : BitVec 4) : BitVec 2 := ttl.extractLsb' 0 2

/-- `OperandWellFormed` (R70): every RES0 bit of the operand is zero. -/
def operandWellFormed (c : Config) (op : Operand) : Bool :=
  opRes0High op == 0#20
    && opRes0Low op == 0#44
    && (c.featTTL || opTTL op == 0b0000#4)
    && (!c.featTTL || ttlHigh (opTTL op) != 0b00#2 || ttlLow (opTTL op) == 0b00#2)

/-- The TTL field with its RES0 bits read as zero (R70, `Res0Policy == ignore`): the whole field without FEAT_TTL, the
low two bits when the high two are `00`. -/
def ttlRes0AsZero (c : Config) (ttl : BitVec 4) : BitVec 4 :=
  if c.featTTL then (if ttlHigh ttl = 0b00#2 then 0b0000#4 else ttl) else 0b0000#4

/-- The operand with every RES0 bit read as zero (R70, R77). -/
def operandRes0AsZero (c : Config) (op : Operand) : Operand :=
  0#20 ++ opVA op ++ opASID op ++ ttlRes0AsZero c (opTTL op) ++ 0#44

/-- The operand the predicates of R77 read: with the policy `ignore` its RES0 bits are zero. -/
def operandRead (c : Config) (op : Operand) : Operand :=
  match c.res0Policy with
  | .nothingRequired => op
  | .ignore => operandRes0AsZero c op

/-- The granule and level a TTL value names when FEAT_TTL is implemented (R67). -/
def ttlNames (lpa2 : Bool) (ttl : BitVec 4) : Option (Granule × Int) :=
  match ttl.toNat with
  | 0b0100 => if lpa2 then some (.kb4, 0) else none
  | 0b0101 => some (.kb4, 1)
  | 0b0110 => some (.kb4, 2)
  | 0b0111 => some (.kb4, 3)
  | 0b1001 => if lpa2 then some (.kb16, 1) else none
  | 0b1010 => some (.kb16, 2)
  | 0b1011 => some (.kb16, 3)
  | 0b1101 => some (.kb64, 1)
  | 0b1110 => some (.kb64, 2)
  | 0b1111 => some (.kb64, 3)
  | _ => none

/-- `EffTTL(op, cfg)`: no information, or the granule and level named (R67). -/
def effTTL (c : Config) (op : Operand) : Option (Granule × Int) :=
  if c.featTTL then ttlNames c.featLPA2 (opTTL op) else none

/-- `RawTTLHigh(op, cfg)` (R72): the two bits software wrote, `00` without FEAT_TTL (log 31). -/
def rawTTLHigh (c : Config) (op : Operand) : BitVec 2 :=
  if c.featTTL then ttlHigh (opTTL op) else 0b00#2

end Sys2Proof.Machine
end

