-- ==== Sys2Proof/Machine/Invalidation.lean ====
section
/-! DEFINITION. The invalidation operation common to both instructions (40_tlbip_operation.md): which entries must go,
which PEs are reached, what happens to a TLB, and the three steps issue, apply and complete. -/

namespace Sys2Proof.Machine

/-! ## Which entries must be invalidated -/

/-- `SizeStage` (40_tlbip_operation.md R72). -/
def sizeStage (c : Config) (op : Operand) (e : TlbEntry) : Bool :=
  e.stage1 && (!e.combined || c.combinedS1S2Required)
    && (e.descBits == .bits128 || (e.descBits == .bits64 && rawTTLHigh c op == 0b00#2))

/-- `k(granule)`: how many low bits of `op.VA` are ignored (R63). -/
def ignoredVABits : Granule → Nat
  | .kb4 => 0
  | .kb16 => 2
  | .kb64 => 4

/-- Does some address `a` of the interval have `a[55 : 12 + k] == va[43 : k]`? The values of `a[55:0]` that match form one
interval, from `first` to `last`; the least matching address that is not below the interval's start decides (R73;
log 15). -/
def intervalMeets (k : Nat) (va : BitVec 44) (r : AddrInterval) : Bool :=
  let unit := 2 ^ (12 + k)
  let first := va.toNat / 2 ^ k * unit
  let last := first + unit - 1
  let low := r.lo.toNat % 2 ^ 56
  let base := r.lo.toNat - low
  let candidate := if low ≤ last then base + max low first else base + 2 ^ 56 + first
  decide (candidate ≤ r.hi.toNat)

/-- `CoversVA` (R73): some address of the entry's range agrees with the operand on bits [55:12], less the bits the entry's
granule ignores. -/
def coversVA (op : Operand) (e : TlbEntry) : Bool :=
  e.range.any (intervalMeets (ignoredVABits e.granule) (opVA op))

/-- `LevelAsid` (R74). -/
def levelAsid (op : Operand) (e : TlbEntry) : Bool :=
  (!e.final && e.asid == opASID op)
    || (e.final && e.global)
    || (e.final && !e.global && e.asid == opASID op)

/-- `RegimeMatch` (R75). -/
def regimeMatch (r : TlbiRecord) (e : TlbEntry) : Bool :=
  e.regime == r.regime && e.secstate == r.security && (r.vmid == .vmidNone || e.vmid == r.vmid)

/-- `TTLAdmits` (R76). -/
def ttlAdmits (c : Config) (op : Operand) (e : TlbEntry) : Bool :=
  match effTTL c op with
  | none => true
  | some (g, l) =>
    e.granule == g
      && ((e.final && e.level == l) || (!e.final && decide (e.level < l) && c.ttlNonLeafRequired))

/-- `Required(e, rec, cfg)` (R77). -/
def required (c : Config) (r : TlbiRecord) (e : TlbEntry) : Bool :=
  (c.res0Policy == .ignore || operandWellFormed c r.op)
    && sizeStage c (operandRead c r.op) e
    && coversVA (operandRead c r.op) e
    && levelAsid (operandRead c r.op) e
    && regimeMatch r e
    && ttlAdmits c (operandRead c r.op) e

/-! ## Which PEs, and what happens to a TLB -/

/-- `InnerShareable(p)`, among the PEs of the machine; it contains `p` (R78; log 16). -/
def innerShareable (s : State) (p : PEId) : List PEId :=
  (p :: ((s.cfg.innerShareable[p]?).getD []).filter fun q => decide (q < s.pes.length)).dedup

/-- `Scope(p, shareability)` (R78). -/
def scope (s : State) (p : PEId) : Shareability → List PEId
  | .nsh => [p]
  | .ish => innerShareable s p

/-- A TLB after the invalidation: every required entry is gone, and whether another entry stays is `keeps`, a free value
(R79; log 10). -/
def invalidateTlb (c : Config) (r : TlbiRecord) (keeps : TlbEntry → Bool) (tlb : List TlbEntry) : List TlbEntry :=
  tlb.filter fun e => !required c r e && keeps e

/-- Apply the invalidation to the TLB of PE `q` (R79, R85). -/
def applyTo (r : TlbiRecord) (s : State) (q : PEId) : State :=
  s.modifyPE q fun pe => pe.setTlb (invalidateTlb s.cfg r (Config.freeKeeps s.tick q) pe.tlb)

/-! ## The three steps -/

/-- `IssueTLBI(p, rec)` (R84). With `TLBIAtomic` the apply step for every PE of the scope is made at once (R86;
log 36). -/
def issueTLBI (p : PEId) (r : TlbiRecord) (s : State) : State :=
  if s.cfg.tlbiAtomic then
    let q := scope s p r.shareability
    let s' := q.foldl (applyTo r) s
    s'.setPending (s'.pending ++ [{ issuer := p, record := r, applied := q }])
  else
    s.setPending (s.pending ++ [{ issuer := p, record := r, applied := [] }])

/-- Issue the invalidation and end the instruction: `pc <- pc + 4` (41_tlbip_vae1.md R93). -/
def issueAndAdvance (p : PEId) (r : TlbiRecord) (s : State) : State :=
  (issueTLBI p r s).modifyPE p PE.advancePc

/-- May element `v` of `Pending` still be applied to PE `q` (R85)? -/
def canApply (s : State) (v : Invalidation) (q : PEId) : Bool :=
  decide (q ∈ scope s v.issuer v.record.shareability) && !decide (q ∈ v.applied)

/-- The apply step of the invalidation agent (R85); nothing changes where it is not enabled (log 9). -/
def applyStep (i : Nat) (q : PEId) (s : State) : State :=
  match s.pending[i]? with
  | none => s
  | some v =>
    if canApply s v q then
      (applyTo v.record s q).setPending (s.pending.set i { v with applied := q :: v.applied })
    else s

/-- Does access `a` in flight hold up the completion of `v`? Its PE is in the scope, it used old translation information,
and, when XS accesses are excluded, its XS attribute is 0 (R81, R82). -/
def holdsUp (s : State) (v : Invalidation) (a : Access) : Bool :=
  decide (a.pe ∈ scope s v.issuer v.record.shareability)
    && (v.record.attr == .allAttr || a.xs == 0#1)
    && a.used.any (required s.cfg v.record)

/-- May `v` be completed (R86)? It has been applied to exactly its scope, and no access holds it up. -/
def canComplete (s : State) (v : Invalidation) : Bool :=
  let q := scope s v.issuer v.record.shareability
  q.all (fun p => decide (p ∈ v.applied)) && v.applied.all (fun p => decide (p ∈ q))
    && s.inFlight.all (fun a => !holdsUp s v a)

/-- The complete step of the invalidation agent (R86); nothing changes where it is not enabled (log 9). -/
def completeStep (i : Nat) (s : State) : State :=
  match s.pending[i]? with
  | none => s
  | some v => if canComplete s v then s.setPending (s.pending.eraseIdx i) else s

/-- Access `j` completes and leaves `InFlight` (10_state.md R24; log 29). -/
def accessDoneStep (j : Nat) (s : State) : State := s.setInFlight (s.inFlight.eraseIdx j)

end Sys2Proof.Machine
end

