-- ==== Sys2Proof/Machine/Tlbip.lean ====
section
/-! DEFINITION. The two instructions (41_tlbip_vae1.md, 42_tlbip_vae1nxs.md). -/

namespace Sys2Proof.Machine

/-- The record of an execution at EL1: the EL1&0 regime of the current VMID (41_tlbip_vae1.md R90). -/
def recordAtEL1 (c : Config) (pe : PE) (attr : TlbiAttr) (op : Operand) : TlbiRecord :=
  { security := securityStateAtEL c pe .el1, regime := .el10, vmid := currentVMID pe
    shareability := shareabilityAtEL1 c pe, level := .any, attr := attr, op := op }

/-- The record of an execution at EL2 or EL3: the EL2&0 regime when `HCR_EL2.<E2H, TGE> == '11'`, else the EL1&0 regime
of the current VMID; the executing PE only (41_tlbip_vae1.md R90). -/
def recordAboveEL1 (c : Config) (pe : PE) (attr : TlbiAttr) (op : Operand) : TlbiRecord :=
  if hcrE2HTGE c pe = 0b11#2 then
    { security := securityStateAtEL c pe .el2, regime := .el20, vmid := .vmidNone
      shareability := .nsh, level := .any, attr := attr, op := op }
  else
    { security := securityStateAtEL c pe .el1, regime := .el10, vmid := currentVMID pe
      shareability := .nsh, level := .any, attr := attr, op := op }

/-- `TLBIP VAE1` (41_tlbip_vae1.md R90 to R94). -/
def execTlbipVae1 (t t2 : Reg) (s : State) : Result :=
  whenExecuting s fun p pe =>
    let op := operandOf pe t t2
    if !s.cfg.featD128 then raiseUndefined
    else match pe.el with
    | .el0 => raiseUndefined
    | .el1 =>
      if ttlbTrap s.cfg pe then raiseSystemAccessTrap .el2 0x14
      else if fineGrainedTrap s.cfg pe then raiseSystemAccessTrap .el2 0x14
      else .next (issueAndAdvance p (recordAtEL1 s.cfg pe (attrAtEL1 s.cfg pe) op) s)
    | .el2 => .next (issueAndAdvance p (recordAboveEL1 s.cfg pe .allAttr op) s)
    | .el3 => .next (issueAndAdvance p (recordAboveEL1 s.cfg pe .allAttr op) s)

/-- `TLBIP VAE1NXS` (42_tlbip_vae1nxs.md R100 to R103). -/
def execTlbipVae1nxs (t t2 : Reg) (s : State) : Result :=
  whenExecuting s fun p pe =>
    let op := operandOf pe t t2
    if !s.cfg.featD128 then raiseUndefined
    else if !s.cfg.featXS then raiseUndefined
    else match pe.el with
    | .el0 => raiseUndefined
    | .el1 =>
      if ttlbTrap s.cfg pe then raiseSystemAccessTrap .el2 0x14
      else if fineGrainedTrapNXS s.cfg pe then raiseSystemAccessTrap .el2 0x14
      else .next (issueAndAdvance p (recordAtEL1 s.cfg pe .excludeXS op) s)
    | .el2 => .next (issueAndAdvance p (recordAboveEL1 s.cfg pe .excludeXS op) s)
    | .el3 => .next (issueAndAdvance p (recordAboveEL1 s.cfg pe .excludeXS op) s)

end Sys2Proof.Machine
end

