-- ==== Sys2Proof/Machine/Dispatch.lean ====
section
/-! DEFINITION. Which meaning each instruction has: one arm per constructor of Instr. -/

namespace Sys2Proof.Machine

def exec (i : Instr) (s : State) : Host.Outcome State Fault Refusal :=
  match i with
  | .tlbipVae1 t t2 => Sys2Proof.Machine.execTlbipVae1 t t2 s
  | .tlbipVae1nxs t t2 => Sys2Proof.Machine.execTlbipVae1nxs t t2 s

end Sys2Proof.Machine
end

