-- ==== Sys2Proof/Machine/Fetch.lean ====
section
/-! DEFINITION. Fetching the instruction at `pc`, and placing one there. -/

namespace Sys2Proof.Machine

/-- What the fetch finds: an instruction, or the reason there is none. -/
inductive Fetched where
  | instr (i : Instr)
  | fault (f : Fault)
  | refused (r : Refusal)
  deriving DecidableEq, Repr

/-- The refusal that names a rejected decode. -/
def refusalOf (pc : Addr) : DecodeReject → Fetched
  | .tooShort => .fault (.fetchUnwritten pc)
  | .outsideSpec w => .refused (.outsideSpec w)
  | .unpairedRegister w => .refused (.unpairedRegister w)

/-- Fetch and decode the instruction at `pc`: a `pc` that is not a multiple of 4 is refused (10_state.md R13); the four
bytes are read at `pc` itself, lowest address least significant (20_memory.md R32; log 19). -/
def fetch (c : Config) (m : Memory) (pc : Addr) : Fetched :=
  if pc.extractLsb' 0 2 = 0#2 then
    match Memory.readBytes m pc 4 with
    | none => .fault (.fetchUnwritten pc)
    | some bs =>
      match decode c.wordLayout c.pairRule bs with
      | .ok (i, _) => .instr i
      | .error e => refusalOf pc e
  else .refused (.misalignedPc pc)

/-- The PE that executes next if `withFetchWord` has to choose one: the one whose turn it is, else PE 0. -/
def fetchingPE (s : State) : PEId :=
  match s.executing with
  | some (p, _) => p
  | none => 0

/-- Place a word where PE `p` fetches its next instruction, at its `pc` rounded down to a multiple of 4, and give `p` the
turn. -/
def placeWord (s : State) (p : PEId) (w : Word) : State :=
  match s.pes[p]? with
  | none => s
  | some pe =>
    let pc := pe.pc &&& ~~~3#64
    ((s.modifyPE p fun q => q.setPc pc).setMem (Memory.writeBytes s.mem pc (bytesOfWord w))).setTurn (.execute p)

end Sys2Proof.Machine
end

