-- ==== Sys2Proof/Machine/Step.lean ====
section
/-! DEFINITION. One step of the machine: the agent whose turn it is moves, then the turn passes on. -/

namespace Sys2Proof.Machine

/-- One step (10_state.md R24, 40_tlbip_operation.md R84 to R86, 60_exceptions.md R120). DESIGN CHOICE (log 41): whatever stops
the fetch or the decoding comes before any exception of the instruction (60_exceptions.md R113 leaves it open). -/
def step (s : State) : Host.Outcome State Fault Refusal :=
  match s.turn with
  | .execute p =>
    match s.pes[p]? with
    | none => .next s.nextTurn
    | some pe =>
      match fetch s.cfg s.mem pe.pc with
      | .instr i => passTurn (exec i s)
      | .fault f => .fault f
      | .refused r => .refused r
  | .apply i q => .next (applyStep i q s).nextTurn
  | .complete i => .next (completeStep i s).nextTurn
  | .accessDone j => .next (accessDoneStep j s).nextTurn

/-- `s` with the instruction of bits `w` stored where the next step fetches (log 20). -/
def State.withFetchWord (s : State) (nbits w : Nat) : State :=
  placeWord s (fetchingPE s) (BitVec.ofNat 32 (w % 2 ^ nbits))

end Sys2Proof.Machine
end

