-- ==== Sys2Proof/Safety.lean ====
section
/-! DEFINITION. What counts as a well-formed machine and a safe run, in the terms claims use. -/

namespace Sys2Proof.Machine

/-- `PSTATE.EL` ranges over implemented levels (10_state.md R14; log 33). -/
def elImplemented (c : Config) : EL → Bool
  | .el0 => true
  | .el1 => true
  | .el2 => c.haveEL2
  | .el3 => c.haveEL3

/-- A PE the spec admits: `pc` a multiple of 4 (10_state.md R13), an implemented level (R14), and a TLB that is a set of
entries a TLB can hold (R22, R23). -/
def peWf (c : Config) (pe : PE) : Bool :=
  pe.pc.extractLsb' 0 2 == 0#2 && elImplemented c pe.el && pe.tlb.all (entryWf c) && decide pe.tlb.Nodup

/-- The shapes of record the two listings build (40_tlbip_operation.md R71): the EL2&0 regime comes with `VMID_NONE` and
reaches the executing PE only; otherwise the regime is EL1&0. -/
def recordWf (r : TlbiRecord) : Bool :=
  r.regime == .el10 || (r.regime == .el20 && r.vmid == .vmidNone && r.shareability == .nsh)

/-- A pending invalidation: issued by a PE of the machine, and applied only to PEs of its scope, each listed once
(10_state.md R25, 40_tlbip_operation.md R85). -/
def invalidationWf (s : State) (v : Invalidation) : Bool :=
  decide (v.issuer < s.pes.length) && recordWf v.record
    && v.applied.all (fun q => decide (q ∈ scope s v.issuer v.record.shareability))
    && decide v.applied.Nodup

/-- An access in flight: made by a PE of the machine, and translated with entries a TLB can hold, so with a zero upper
ASID byte where the implementation has 8 bits of ASID (10_state.md R24, 40_tlbip_operation.md R65; log 32). -/
def accessWf (s : State) (a : Access) : Bool :=
  decide (a.pe < s.pes.length) && a.used.all (entryWf s.cfg)

/-- The well-formed states: at least one PE, every PE well formed, memory in canonical form, every pending invalidation
and every access in flight well formed. -/
def State.wf (s : State) : Bool :=
  decide (0 < s.pes.length) && s.pes.all (peWf s.cfg) && s.mem.wf && s.pending.all (invalidationWf s)
    && s.inFlight.all (accessWf s)

/-- No TLB to which a pending invalidation has been applied holds an entry that invalidation requires to go. -/
def State.appliedClean (s : State) : Prop :=
  ∀ v ∈ s.pending, ∀ q ∈ v.applied, ∀ pe, s.pes[q]? = some pe → ∀ e ∈ pe.tlb, required s.cfg v.record e = false

/-- No invalidation is pending: a run is over only then (40_tlbip_operation.md R86). -/
def State.quiescent (s : State) : Bool := s.pending.isEmpty

/-- `t` comes from `s` by steps that each have a next state. -/
inductive Reaches : State → State → Prop where
  | refl (s : State) : Reaches s s
  | snoc {s t u : State} (h : Reaches s t) (hs : step t = .next u) : Reaches s u

end Sys2Proof.Machine
end

