-- ==== Sys2Proof/Laws/State.lean ====
section
/-! SUPPORT. What each update of the state and of a PE does to each field: one lemma per field per update. -/

namespace Sys2Proof.Machine

@[simp] theorem State.modifyPE_cfg (s : State) (p : PEId) (f : PE → PE) : (s.modifyPE p f).cfg = s.cfg := rfl
@[simp] theorem State.modifyPE_pes (s : State) (p : PEId) (f : PE → PE) : (s.modifyPE p f).pes = s.pes.modify p f := rfl
@[simp] theorem State.modifyPE_mem (s : State) (p : PEId) (f : PE → PE) : (s.modifyPE p f).mem = s.mem := rfl
@[simp] theorem State.modifyPE_pending (s : State) (p : PEId) (f : PE → PE) : (s.modifyPE p f).pending = s.pending := rfl
@[simp] theorem State.modifyPE_inFlight (s : State) (p : PEId) (f : PE → PE) : (s.modifyPE p f).inFlight = s.inFlight := rfl
@[simp] theorem State.modifyPE_turn (s : State) (p : PEId) (f : PE → PE) : (s.modifyPE p f).turn = s.turn := rfl
@[simp] theorem State.modifyPE_tick (s : State) (p : PEId) (f : PE → PE) : (s.modifyPE p f).tick = s.tick := rfl

@[simp] theorem State.setMem_cfg (s : State) (m : Memory) : (s.setMem m).cfg = s.cfg := rfl
@[simp] theorem State.setMem_pes (s : State) (m : Memory) : (s.setMem m).pes = s.pes := rfl
@[simp] theorem State.setMem_mem (s : State) (m : Memory) : (s.setMem m).mem = m := rfl
@[simp] theorem State.setMem_pending (s : State) (m : Memory) : (s.setMem m).pending = s.pending := rfl
@[simp] theorem State.setMem_inFlight (s : State) (m : Memory) : (s.setMem m).inFlight = s.inFlight := rfl
@[simp] theorem State.setMem_turn (s : State) (m : Memory) : (s.setMem m).turn = s.turn := rfl
@[simp] theorem State.setMem_tick (s : State) (m : Memory) : (s.setMem m).tick = s.tick := rfl

@[simp] theorem State.setPending_cfg (s : State) (l : List Invalidation) : (s.setPending l).cfg = s.cfg := rfl
@[simp] theorem State.setPending_pes (s : State) (l : List Invalidation) : (s.setPending l).pes = s.pes := rfl
@[simp] theorem State.setPending_mem (s : State) (l : List Invalidation) : (s.setPending l).mem = s.mem := rfl
@[simp] theorem State.setPending_pending (s : State) (l : List Invalidation) : (s.setPending l).pending = l := rfl
@[simp] theorem State.setPending_inFlight (s : State) (l : List Invalidation) : (s.setPending l).inFlight = s.inFlight := rfl
@[simp] theorem State.setPending_turn (s : State) (l : List Invalidation) : (s.setPending l).turn = s.turn := rfl
@[simp] theorem State.setPending_tick (s : State) (l : List Invalidation) : (s.setPending l).tick = s.tick := rfl

@[simp] theorem State.setInFlight_cfg (s : State) (l : List Access) : (s.setInFlight l).cfg = s.cfg := rfl
@[simp] theorem State.setInFlight_pes (s : State) (l : List Access) : (s.setInFlight l).pes = s.pes := rfl
@[simp] theorem State.setInFlight_mem (s : State) (l : List Access) : (s.setInFlight l).mem = s.mem := rfl
@[simp] theorem State.setInFlight_pending (s : State) (l : List Access) : (s.setInFlight l).pending = s.pending := rfl
@[simp] theorem State.setInFlight_inFlight (s : State) (l : List Access) : (s.setInFlight l).inFlight = l := rfl
@[simp] theorem State.setInFlight_turn (s : State) (l : List Access) : (s.setInFlight l).turn = s.turn := rfl
@[simp] theorem State.setInFlight_tick (s : State) (l : List Access) : (s.setInFlight l).tick = s.tick := rfl

@[simp] theorem State.setTurn_cfg (s : State) (t : Turn) : (s.setTurn t).cfg = s.cfg := rfl
@[simp] theorem State.setTurn_pes (s : State) (t : Turn) : (s.setTurn t).pes = s.pes := rfl
@[simp] theorem State.setTurn_mem (s : State) (t : Turn) : (s.setTurn t).mem = s.mem := rfl
@[simp] theorem State.setTurn_pending (s : State) (t : Turn) : (s.setTurn t).pending = s.pending := rfl
@[simp] theorem State.setTurn_inFlight (s : State) (t : Turn) : (s.setTurn t).inFlight = s.inFlight := rfl
@[simp] theorem State.setTurn_turn (s : State) (t : Turn) : (s.setTurn t).turn = t := rfl
@[simp] theorem State.setTurn_tick (s : State) (t : Turn) : (s.setTurn t).tick = s.tick := rfl

@[simp] theorem State.nextTurn_cfg (s : State) : s.nextTurn.cfg = s.cfg := rfl
@[simp] theorem State.nextTurn_pes (s : State) : s.nextTurn.pes = s.pes := rfl
@[simp] theorem State.nextTurn_mem (s : State) : s.nextTurn.mem = s.mem := rfl
@[simp] theorem State.nextTurn_pending (s : State) : s.nextTurn.pending = s.pending := rfl
@[simp] theorem State.nextTurn_inFlight (s : State) : s.nextTurn.inFlight = s.inFlight := rfl
@[simp] theorem State.nextTurn_turn (s : State) : s.nextTurn.turn = Config.freeTurn s.tick := rfl
@[simp] theorem State.nextTurn_tick (s : State) : s.nextTurn.tick = s.tick + 1 := rfl

@[simp] theorem PE.setPc_x (pe : PE) (v : Addr) : (pe.setPc v).x = pe.x := rfl
@[simp] theorem PE.setPc_pc (pe : PE) (v : Addr) : (pe.setPc v).pc = v := rfl
@[simp] theorem PE.setPc_el (pe : PE) (v : Addr) : (pe.setPc v).el = pe.el := rfl
@[simp] theorem PE.setPc_hcrEl2 (pe : PE) (v : Addr) : (pe.setPc v).hcrEl2 = pe.hcrEl2 := rfl
@[simp] theorem PE.setPc_scrEl3 (pe : PE) (v : Addr) : (pe.setPc v).scrEl3 = pe.scrEl3 := rfl
@[simp] theorem PE.setPc_hfgitrEl2 (pe : PE) (v : Addr) : (pe.setPc v).hfgitrEl2 = pe.hfgitrEl2 := rfl
@[simp] theorem PE.setPc_hcrxEl2 (pe : PE) (v : Addr) : (pe.setPc v).hcrxEl2 = pe.hcrxEl2 := rfl
@[simp] theorem PE.setPc_vmidReads (pe : PE) (v : Addr) : (pe.setPc v).vmidReads = pe.vmidReads := rfl
@[simp] theorem PE.setPc_el2EnabledReads (pe : PE) (v : Addr) : (pe.setPc v).el2EnabledReads = pe.el2EnabledReads := rfl
@[simp] theorem PE.setPc_hcrxEl2EnabledReads (pe : PE) (v : Addr) : (pe.setPc v).hcrxEl2EnabledReads = pe.hcrxEl2EnabledReads := rfl
@[simp] theorem PE.setPc_tlb (pe : PE) (v : Addr) : (pe.setPc v).tlb = pe.tlb := rfl

@[simp] theorem PE.setTlb_x (pe : PE) (l : List TlbEntry) : (pe.setTlb l).x = pe.x := rfl
@[simp] theorem PE.setTlb_pc (pe : PE) (l : List TlbEntry) : (pe.setTlb l).pc = pe.pc := rfl
@[simp] theorem PE.setTlb_el (pe : PE) (l : List TlbEntry) : (pe.setTlb l).el = pe.el := rfl
@[simp] theorem PE.setTlb_hcrEl2 (pe : PE) (l : List TlbEntry) : (pe.setTlb l).hcrEl2 = pe.hcrEl2 := rfl
@[simp] theorem PE.setTlb_scrEl3 (pe : PE) (l : List TlbEntry) : (pe.setTlb l).scrEl3 = pe.scrEl3 := rfl
@[simp] theorem PE.setTlb_hfgitrEl2 (pe : PE) (l : List TlbEntry) : (pe.setTlb l).hfgitrEl2 = pe.hfgitrEl2 := rfl
@[simp] theorem PE.setTlb_hcrxEl2 (pe : PE) (l : List TlbEntry) : (pe.setTlb l).hcrxEl2 = pe.hcrxEl2 := rfl
@[simp] theorem PE.setTlb_vmidReads (pe : PE) (l : List TlbEntry) : (pe.setTlb l).vmidReads = pe.vmidReads := rfl
@[simp] theorem PE.setTlb_el2EnabledReads (pe : PE) (l : List TlbEntry) : (pe.setTlb l).el2EnabledReads = pe.el2EnabledReads := rfl
@[simp] theorem PE.setTlb_hcrxEl2EnabledReads (pe : PE) (l : List TlbEntry) : (pe.setTlb l).hcrxEl2EnabledReads = pe.hcrxEl2EnabledReads := rfl
@[simp] theorem PE.setTlb_tlb (pe : PE) (l : List TlbEntry) : (pe.setTlb l).tlb = l := rfl

@[simp] theorem PE.advancePc_x (pe : PE) : (pe.advancePc).x = pe.x := rfl
@[simp] theorem PE.advancePc_pc (pe : PE) : (pe.advancePc).pc = pe.pc + 4#64 := rfl
@[simp] theorem PE.advancePc_el (pe : PE) : (pe.advancePc).el = pe.el := rfl
@[simp] theorem PE.advancePc_hcrEl2 (pe : PE) : (pe.advancePc).hcrEl2 = pe.hcrEl2 := rfl
@[simp] theorem PE.advancePc_scrEl3 (pe : PE) : (pe.advancePc).scrEl3 = pe.scrEl3 := rfl
@[simp] theorem PE.advancePc_hfgitrEl2 (pe : PE) : (pe.advancePc).hfgitrEl2 = pe.hfgitrEl2 := rfl
@[simp] theorem PE.advancePc_hcrxEl2 (pe : PE) : (pe.advancePc).hcrxEl2 = pe.hcrxEl2 := rfl
@[simp] theorem PE.advancePc_vmidReads (pe : PE) : (pe.advancePc).vmidReads = pe.vmidReads := rfl
@[simp] theorem PE.advancePc_el2EnabledReads (pe : PE) : (pe.advancePc).el2EnabledReads = pe.el2EnabledReads := rfl
@[simp] theorem PE.advancePc_hcrxEl2EnabledReads (pe : PE) : (pe.advancePc).hcrxEl2EnabledReads = pe.hcrxEl2EnabledReads := rfl
@[simp] theorem PE.advancePc_tlb (pe : PE) : (pe.advancePc).tlb = pe.tlb := rfl

/-- What PE `q` is after PE `p` was replaced by `f` of it. -/
theorem State.modifyPE_getElem? (s : State) (p q : PEId) (f : PE → PE) :
    (s.modifyPE p f).pes[q]? = (s.pes[q]?).map (fun pe => if p = q then f pe else pe) := by
  simp [List.getElem?_modify]

@[simp] theorem State.modifyPE_getElem?_self (s : State) (p : PEId) (f : PE → PE) :
    (s.modifyPE p f).pes[p]? = (s.pes[p]?).map f := by
  simp

theorem State.modifyPE_getElem?_of_ne (s : State) {p q : PEId} (h : p ≠ q) (f : PE → PE) :
    (s.modifyPE p f).pes[q]? = s.pes[q]? := by
  simp [h]

@[simp] theorem State.modifyPE_pes_length (s : State) (p : PEId) (f : PE → PE) :
    (s.modifyPE p f).pes.length = s.pes.length := by
  simp

/-- A PE whose turn it is to execute is a PE of the machine, and conversely. -/
theorem State.executing_eq_some (s : State) (p : PEId) (pe : PE) :
    s.executing = some (p, pe) ↔ s.turn = .execute p ∧ s.pes[p]? = some pe := by
  unfold State.executing
  cases h : s.turn <;> simp
  case execute q =>
    constructor
    · rintro ⟨ha, rfl⟩
      exact ⟨rfl, ha⟩
    · rintro ⟨rfl, ha⟩
      exact ⟨ha, rfl⟩

end Sys2Proof.Machine
end

