-- ==== Sys2Proof/Laws/Ops.lean ====
section
/-! SUPPORT. One lemma per shared operation that says everything it can do; later proofs cite these and do not unfold. -/

namespace Sys2Proof.Machine

/-! ## Registers -/

@[simp] theorem PE.readX_31 (pe : PE) : pe.readX 31#5 = 0#64 := rfl

@[simp] theorem PE.writeX_31 (pe : PE) (v : DWord) : pe.writeX 31#5 v = pe := rfl

/-- A register reads what was written to it last; register 31 reads as zero whatever is written. -/
theorem PE.readX_writeX (pe : PE) (i j : Reg) (v : DWord) :
    (pe.writeX i v).readX j = if j = i ∧ i ≠ 31#5 then v else pe.readX j := by
  unfold PE.readX PE.writeX
  by_cases hi : i.toNat < 31
  · have hne : i ≠ 31#5 := by rintro rfl; simp at hi
    by_cases hj : j.toNat < 31
    · by_cases h : j = i
      · subst h; simp [hi, hne]
      · have h' : i.toNat ≠ j.toNat := fun e => h (BitVec.eq_of_toNat_eq e.symm)
        simp [hi, hj, h, h']
    · have h : j ≠ i := by rintro rfl; exact hj hi
      simp [hj, h]
  · have : i = 31#5 := by apply BitVec.eq_of_toNat_eq; have := i.isLt; simp; omega
    subst this; simp

/-! ## Stopping and passing the turn -/

/-- A step that passes the turn on comes from a next state. -/
theorem passTurn_eq_next {r : Result} {t : State} (h : passTurn r = .next t) : ∃ u, r = .next u ∧ t = u.nextTurn := by
  cases r with
  | next u => exact ⟨u, rfl, by simpa [passTurn] using h.symm⟩
  | fault f => cases h
  | refused r => cases h

/-- With an executing PE, the meaning runs on it. -/
theorem whenExecuting_of_executing {s : State} {p : PEId} {pe : PE} (h : s.executing = some (p, pe))
    (f : PEId → PE → Result) : whenExecuting s f = f p pe := by
  simp [whenExecuting, h]

/-- A meaning that gives a next state, or faults, ran on an executing PE. -/
theorem whenExecuting_cases (s : State) (f : PEId → PE → Result) :
    (∃ p pe, s.executing = some (p, pe) ∧ whenExecuting s f = f p pe) ∨
      whenExecuting s f = .refused .noExecutingPE := by
  unfold whenExecuting
  cases h : s.executing with
  | none => exact .inr rfl
  | some a => exact .inl ⟨a.1, a.2, rfl, rfl⟩

/-! ## Applying an invalidation -/

/-- What is left of a TLB was there before, and is not required to go. -/
theorem mem_invalidateTlb {c : Config} {r : TlbiRecord} {k : TlbEntry → Bool} {l : List TlbEntry} {e : TlbEntry} :
    e ∈ invalidateTlb c r k l ↔ e ∈ l ∧ required c r e = false ∧ k e = true := by
  simp [invalidateTlb]

theorem invalidateTlb_sublist (c : Config) (r : TlbiRecord) (k : TlbEntry → Bool) (l : List TlbEntry) :
    (invalidateTlb c r k l).Sublist l := List.filter_sublist

theorem invalidateTlb_idem (c : Config) (r : TlbiRecord) (k : TlbEntry → Bool) (l : List TlbEntry) :
    invalidateTlb c r k (invalidateTlb c r k l) = invalidateTlb c r k l := by
  simp [invalidateTlb]

/-- Applying to one PE changes that PE's TLB and nothing else. -/
theorem applyTo_getElem? (r : TlbiRecord) (s : State) (p q : PEId) :
    (applyTo r s p).pes[q]? = (s.pes[q]?).map fun pe =>
      if p = q then pe.setTlb (invalidateTlb s.cfg r (Config.freeKeeps s.tick p) pe.tlb) else pe :=
  State.modifyPE_getElem? ..

/-- Everything but the PEs stands after applying to a list of PEs, and each PE of the list has its TLB invalidated. -/
theorem foldl_applyTo (r : TlbiRecord) (l : List PEId) (s : State) :
    l.foldl (applyTo r) s = { s with pes := (l.foldl (applyTo r) s).pes } ∧
      (l.foldl (applyTo r) s).pes.length = s.pes.length ∧
      ∀ q, (l.foldl (applyTo r) s).pes[q]? = (s.pes[q]?).map fun pe =>
        if q ∈ l then pe.setTlb (invalidateTlb s.cfg r (Config.freeKeeps s.tick q) pe.tlb) else pe := by
  induction l generalizing s with
  | nil => simp
  | cons p l ih =>
    obtain ⟨h1, h2, h3⟩ := ih (applyTo r s p)
    refine ⟨by rw [List.foldl_cons, h1]; rfl, ?_, fun q => ?_⟩
    · rw [List.foldl_cons, h2]; simp [applyTo]
    · rw [List.foldl_cons, h3, applyTo_getElem?, Option.map_map]
      congr 1
      funext pe
      by_cases hp : p = q
      · subst hp
        by_cases hl : p ∈ l <;> simp [hl, applyTo, PE.setTlb, invalidateTlb_idem]
      · by_cases hl : q ∈ l <;> simp [hl, hp, Ne.symm hp, applyTo]

/-! ## Issue -/

/-- The PEs an issued record has been applied to when the instruction ends: none, or, with TLBIAtomic, its scope. -/
def appliedAtIssue (s : State) (p : PEId) (r : TlbiRecord) : List PEId :=
  if s.cfg.tlbiAtomic then scope s p r.shareability else []

/-- Issue appends one element to `Pending` and touches only TLBs of the PEs it has been applied to. -/
theorem issueTLBI_spec (p : PEId) (r : TlbiRecord) (s : State) :
    issueTLBI p r s = { s with
      pending := s.pending ++ [{ issuer := p, record := r, applied := appliedAtIssue s p r }]
      pes := (issueTLBI p r s).pes } ∧
    (issueTLBI p r s).pes.length = s.pes.length ∧
    ∀ q, (issueTLBI p r s).pes[q]? = (s.pes[q]?).map fun pe =>
      if q ∈ appliedAtIssue s p r then pe.setTlb (invalidateTlb s.cfg r (Config.freeKeeps s.tick q) pe.tlb)
      else pe := by
  unfold issueTLBI appliedAtIssue
  cases h : s.cfg.tlbiAtomic
  · simp [State.setPending]
  · obtain ⟨h1, h2, h3⟩ := foldl_applyTo r (scope s p r.shareability) s
    simp only [if_true]
    refine ⟨?_, h2, h3⟩
    rw [h1]
    rfl

/-- The end of the instruction: besides the issue, the issuing PE's `pc` advances. -/
theorem issueAndAdvance_spec (p : PEId) (r : TlbiRecord) (s : State) :
    issueAndAdvance p r s = { s with
      pending := s.pending ++ [{ issuer := p, record := r, applied := appliedAtIssue s p r }]
      pes := (issueAndAdvance p r s).pes } ∧
    (issueAndAdvance p r s).pes.length = s.pes.length ∧
    ∀ q, (issueAndAdvance p r s).pes[q]? = (s.pes[q]?).map fun pe =>
      let pe' := if q ∈ appliedAtIssue s p r then
        pe.setTlb (invalidateTlb s.cfg r (Config.freeKeeps s.tick q) pe.tlb) else pe
      if p = q then pe'.advancePc else pe' := by
  obtain ⟨h1, h2, h3⟩ := issueTLBI_spec p r s
  refine ⟨?_, ?_, fun q => ?_⟩
  · unfold issueAndAdvance
    rw [h1]
    rfl
  · simp [issueAndAdvance, h2]
  · rw [issueAndAdvance, State.modifyPE_getElem?, h3, Option.map_map]
    rfl

@[simp] theorem issueAndAdvance_cfg (p : PEId) (r : TlbiRecord) (s : State) : (issueAndAdvance p r s).cfg = s.cfg := by
  rw [(issueAndAdvance_spec p r s).1]

@[simp] theorem issueAndAdvance_mem (p : PEId) (r : TlbiRecord) (s : State) : (issueAndAdvance p r s).mem = s.mem := by
  rw [(issueAndAdvance_spec p r s).1]

@[simp] theorem issueAndAdvance_inFlight (p : PEId) (r : TlbiRecord) (s : State) :
    (issueAndAdvance p r s).inFlight = s.inFlight := by
  rw [(issueAndAdvance_spec p r s).1]

@[simp] theorem issueAndAdvance_turn (p : PEId) (r : TlbiRecord) (s : State) :
    (issueAndAdvance p r s).turn = s.turn := by
  rw [(issueAndAdvance_spec p r s).1]

@[simp] theorem issueAndAdvance_tick (p : PEId) (r : TlbiRecord) (s : State) :
    (issueAndAdvance p r s).tick = s.tick := by
  rw [(issueAndAdvance_spec p r s).1]

theorem issueAndAdvance_pending (p : PEId) (r : TlbiRecord) (s : State) :
    (issueAndAdvance p r s).pending =
      s.pending ++ [{ issuer := p, record := r, applied := appliedAtIssue s p r }] := by
  rw [(issueAndAdvance_spec p r s).1]

/-! ## The invalidation agent's steps -/

/-- The apply step does nothing, or applies one pending invalidation to one PE of its scope. -/
theorem applyStep_cases (i : Nat) (q : PEId) (s : State) :
    applyStep i q s = s ∨ ∃ v, s.pending[i]? = some v ∧ canApply s v q = true ∧
      applyStep i q s =
        (applyTo v.record s q).setPending (s.pending.set i { v with applied := q :: v.applied }) := by
  unfold applyStep
  cases hv : s.pending[i]? with
  | none => exact .inl rfl
  | some v =>
    cases hc : canApply s v q
    · exact .inl (by simp [hc])
    · exact .inr ⟨v, rfl, hc, by simp [hc]⟩

/-- The complete step does nothing, or takes one invalidation that may be completed out of `Pending`. -/
theorem completeStep_cases (i : Nat) (s : State) :
    completeStep i s = s ∨ ∃ v, s.pending[i]? = some v ∧ canComplete s v = true ∧
      completeStep i s = s.setPending (s.pending.eraseIdx i) := by
  unfold completeStep
  cases hv : s.pending[i]? with
  | none => exact .inl rfl
  | some v =>
    cases hc : canComplete s v
    · exact .inl (by simp [hc])
    · exact .inr ⟨v, rfl, hc, by simp [hc]⟩

/-- What completion means, one clause per condition (40_tlbip_operation.md R81, R82, R86). -/
theorem canComplete_iff (s : State) (v : Invalidation) :
    canComplete s v = true ↔
      (∀ p ∈ scope s v.issuer v.record.shareability, p ∈ v.applied) ∧
      (∀ p ∈ v.applied, p ∈ scope s v.issuer v.record.shareability) ∧
      ∀ a ∈ s.inFlight, holdsUp s v a = false := by
  simp [canComplete, and_assoc]

/-- The executing PE belongs to the scope of what it issues (40_tlbip_operation.md R78). -/
theorem mem_scope_self (s : State) (p : PEId) (sh : Shareability) : p ∈ scope s p sh := by
  cases sh <;> simp [scope, innerShareable]

theorem scope_nodup (s : State) (p : PEId) (sh : Shareability) : (scope s p sh).Nodup := by
  cases sh
  · simp [scope]
  · exact List.nodup_dedup _

/-- The scope depends on the configuration and on how many PEs there are. -/
theorem scope_congr {s t : State} (hc : t.cfg = s.cfg) (hl : t.pes.length = s.pes.length) (p : PEId)
    (sh : Shareability) : scope t p sh = scope s p sh := by
  cases sh <;> simp [scope, innerShareable, hc, hl]

end Sys2Proof.Machine
end

