-- ==== Sys2Proof/Laws/Step.lean ====
section
/-! SUPPORT. What an instruction and a step can do: one inversion lemma each. -/

namespace Sys2Proof.Machine

/-- A next state of `TLBIP VAE1`: the executing PE, at EL1 with no trap or at EL2 or EL3, issued its record. -/
theorem execTlbipVae1_next {t t2 : Reg} {s u : State} (h : execTlbipVae1 t t2 s = .next u) :
    ∃ p pe, s.executing = some (p, pe) ∧ s.cfg.featD128 = true ∧
      ((pe.el = .el1 ∧ ttlbTrap s.cfg pe = false ∧ fineGrainedTrap s.cfg pe = false ∧
          u = issueAndAdvance p (recordAtEL1 s.cfg pe (attrAtEL1 s.cfg pe) (operandOf pe t t2)) s) ∨
        ((pe.el = .el2 ∨ pe.el = .el3) ∧
          u = issueAndAdvance p (recordAboveEL1 s.cfg pe .allAttr (operandOf pe t t2)) s)) := by
  unfold execTlbipVae1 at h
  rcases whenExecuting_cases s _ with ⟨p, pe, he, hw⟩ | hw
  · rw [hw] at h
    refine ⟨p, pe, he, ?_⟩
    cases hd : s.cfg.featD128
    · simp [hd, raiseUndefined] at h
    · cases hl : pe.el <;> simp [hd, hl, raiseUndefined, raiseSystemAccessTrap] at h ⊢
      · split at h
        · cases h
        · next h1 =>
          split at h
          · cases h
          · next h2 => injection h with h; simp_all
      · exact h.symm
      · exact h.symm
  · rw [hw] at h; cases h

/-- A next state of `TLBIP VAE1NXS`: as for `TLBIP VAE1`, with its own trap condition and attribute. -/
theorem execTlbipVae1nxs_next {t t2 : Reg} {s u : State} (h : execTlbipVae1nxs t t2 s = .next u) :
    ∃ p pe, s.executing = some (p, pe) ∧ s.cfg.featD128 = true ∧ s.cfg.featXS = true ∧
      ((pe.el = .el1 ∧ ttlbTrap s.cfg pe = false ∧ fineGrainedTrapNXS s.cfg pe = false ∧
          u = issueAndAdvance p (recordAtEL1 s.cfg pe .excludeXS (operandOf pe t t2)) s) ∨
        ((pe.el = .el2 ∨ pe.el = .el3) ∧
          u = issueAndAdvance p (recordAboveEL1 s.cfg pe .excludeXS (operandOf pe t t2)) s)) := by
  unfold execTlbipVae1nxs at h
  rcases whenExecuting_cases s _ with ⟨p, pe, he, hw⟩ | hw
  · rw [hw] at h
    refine ⟨p, pe, he, ?_⟩
    cases hd : s.cfg.featD128
    · simp [hd, raiseUndefined] at h
    · cases hx : s.cfg.featXS
      · simp [hd, hx, raiseUndefined] at h
      · cases hl : pe.el <;> simp [hd, hx, hl, raiseUndefined, raiseSystemAccessTrap] at h ⊢
        · split at h
          · cases h
          · next h1 =>
            split at h
            · cases h
            · next h2 => injection h with h; simp_all
        · exact h.symm
        · exact h.symm
  · rw [hw] at h; cases h

/-- The record of an execution at EL1, or above it, has one of the two shapes of 40_tlbip_operation.md R71. -/
theorem recordWf_recordAtEL1 (c : Config) (pe : PE) (a : TlbiAttr) (op : Operand) :
    recordWf (recordAtEL1 c pe a op) = true := rfl

theorem recordWf_recordAboveEL1 (c : Config) (pe : PE) (a : TlbiAttr) (op : Operand) :
    recordWf (recordAboveEL1 c pe a op) = true := by
  unfold recordAboveEL1; split <;> rfl

/-- A next state of any instruction: the executing PE issued a well-formed record. -/
theorem exec_next {i : Instr} {s u : State} (h : exec i s = .next u) :
    ∃ p pe r, s.executing = some (p, pe) ∧ recordWf r = true ∧ u = issueAndAdvance p r s := by
  cases i with
  | tlbipVae1 t t2 =>
    obtain ⟨p, pe, he, -, ⟨-, -, -, hu⟩ | ⟨-, hu⟩⟩ := execTlbipVae1_next h
    · exact ⟨p, pe, _, he, recordWf_recordAtEL1 .., hu⟩
    · exact ⟨p, pe, _, he, recordWf_recordAboveEL1 .., hu⟩
  | tlbipVae1nxs t t2 =>
    obtain ⟨p, pe, he, -, -, ⟨-, -, -, hu⟩ | ⟨-, hu⟩⟩ := execTlbipVae1nxs_next h
    · exact ⟨p, pe, _, he, recordWf_recordAtEL1 .., hu⟩
    · exact ⟨p, pe, _, he, recordWf_recordAboveEL1 .., hu⟩

/-- Everything a step with a next state can do, less the passing of the turn. -/
theorem step_cases {s t : State} (h : step s = .next t) :
    ∃ u, t = u.nextTurn ∧
      ((∃ p pe i, s.turn = .execute p ∧ s.pes[p]? = some pe ∧ fetch s.cfg s.mem pe.pc = .instr i ∧
          exec i s = .next u) ∨
        (∃ p, s.turn = .execute p ∧ s.pes[p]? = none ∧ u = s) ∨
        (∃ i q, s.turn = .apply i q ∧ u = applyStep i q s) ∨
        (∃ i, s.turn = .complete i ∧ u = completeStep i s) ∨
        (∃ j, s.turn = .accessDone j ∧ u = accessDoneStep j s)) := by
  unfold step at h
  split at h
  · next p ht =>
    split at h
    · next hp => injection h with h; exact ⟨s, h.symm, .inr (.inl ⟨p, ht, hp, rfl⟩)⟩
    · next pe hp =>
      split at h
      · next i hf =>
        obtain ⟨u, hu, rfl⟩ := passTurn_eq_next h
        exact ⟨u, rfl, .inl ⟨p, pe, i, ht, hp, hf, hu⟩⟩
      · cases h
      · cases h
  · next i q ht => injection h with h; exact ⟨_, h.symm, .inr (.inr (.inl ⟨i, q, ht, rfl⟩))⟩
  · next i ht => injection h with h; exact ⟨_, h.symm, .inr (.inr (.inr (.inl ⟨i, ht, rfl⟩)))⟩
  · next j ht => injection h with h; exact ⟨_, h.symm, .inr (.inr (.inr (.inr ⟨j, ht, rfl⟩)))⟩

/-- An induction over runs, packaged once: what holds at the start and is kept by every step holds at every state
reached. -/
theorem Reaches.invariant {P : State → Prop} (hk : ∀ s t, P s → Machine.step s = .next t → P t) {s t : State}
    (h : Reaches s t) (hs : P s) : P t := by
  induction h with
  | refl => exact hs
  | snoc _ h ih => exact hk _ _ ih h

end Sys2Proof.Machine
end

