-- ==== Sys2Proof/Certificates/Slice0/Obligations.lean ====
section
/-! DEFINITION. The statements for the provers, made from the spec's rules. The helpers under `Claims` restate the spec's
conditions and effects in elementary terms, field by field. -/

open Sys2Proof Sys2Proof.Machine

/-! ## Helpers -/

/-- It is PE `p`'s turn to execute, and `pe` is what `p` is. -/
def Claims.Executes (s : State) (p : PEId) (pe : PE) : Prop := s.turn = .execute p ∧ s.pes[p]? = some pe

/-- The features an instruction needs are implemented (R52, R53). -/
def Claims.Present (c : Config) : Instr → Prop
  | .tlbipVae1 _ _ => c.featD128 = true
  | .tlbipVae1nxs _ _ => c.featD128 = true ∧ c.featXS = true

/-- The conditions under which an execution at EL1 traps to EL2 (the last three rows of R110's table). -/
def Claims.TrapsFromEl1 (c : Config) (pe : PE) : Instr → Prop
  | .tlbipVae1 _ _ => el2Enabled c pe = true ∧ (pe.hcrEl2.ttlb = 1#1 ∨
      (c.featFGT = true ∧ (c.haveEL3 = false ∨ pe.scrEl3.fgten = 1#1) ∧ pe.hfgitrEl2.tlbivae1 = 1#1))
  | .tlbipVae1nxs _ _ => el2Enabled c pe = true ∧ (pe.hcrEl2.ttlb = 1#1 ∨
      (c.featFGT = true ∧ (c.haveEL3 = false ∨ pe.scrEl3.fgten = 1#1) ∧ c.featHCX = true ∧
        (pe.hcrxEl2EnabledReads = false ∨ pe.hcrxEl2.fgtnxs = 0#1) ∧ pe.hfgitrEl2.tlbivae1 = 1#1))

/-- The Security state: the value of `SCR_EL3.NS`, or of `SCR_EL3.{NSE, NS}` with FEAT_RME; a configuration value
without EL3 (R19). -/
def Claims.security (c : Config) (pe : PE) : SecState :=
  match c.haveEL3, c.featRME with
  | true, false => .ofNS pe.scrEl3.ns
  | true, true => .ofNSENS (pe.scrEl3.nse ++ pe.scrEl3.ns)
  | false, _ => c.secStateNoEL3

/-- `{E2H, TGE}` is `{1, 1}` on an implementation with EL2 (R16, R90). -/
def Claims.HostRegime (c : Config) (pe : PE) : Prop :=
  c.haveEL2 = true ∧ pe.hcrEl2.e2h = 1#1 ∧ pe.hcrEl2.tge = 1#1

/-- The state `t` an execution by PE `p` that issues `r` ends in, whole: `Pending` gains one element, the PE's `pc`
advances by 4, and nothing else changes, but that with TLBIAtomic the TLBs of the scope lose entries, all required ones
among them (R84, R86, R93). -/
def Claims.Issued (s : State) (p : PEId) (r : TlbiRecord) (t : State) : Prop :=
  t.pending = s.pending ++ [{ issuer := p, record := r
                              applied := if s.cfg.tlbiAtomic then scope s p r.shareability else [] }] ∧
  t.cfg = s.cfg ∧ t.mem = s.mem ∧ t.inFlight = s.inFlight ∧ t.turn = s.turn ∧ t.tick = s.tick ∧
  t.pes.length = s.pes.length ∧
  ∀ q pq, s.pes[q]? = some pq → ∃ pq', t.pes[q]? = some pq' ∧
    pq' = { pq with pc := if q = p then pq.pc + 4#64 else pq.pc, tlb := pq'.tlb } ∧
    ((s.cfg.tlbiAtomic = false ∨ q ∉ scope s p r.shareability) → pq'.tlb = pq.tlb) ∧
    (s.cfg.tlbiAtomic = true → q ∈ scope s p r.shareability →
      (∀ e ∈ pq'.tlb, e ∈ pq.tlb) ∧ ∀ e ∈ pq'.tlb, required s.cfg r e = false)

/-- What a TTL value names when FEAT_TTL is implemented: the table of R67 in one formula. -/
def Claims.TtlNames (lpa2 : Bool) (ttl : BitVec 4) (g : Granule) (l : Int) : Prop :=
  let high := (ttl.extractLsb' 2 2).toNat
  let low := (ttl.extractLsb' 0 2).toNat
  l = low ∧
    ((high = 1 ∧ g = .kb4 ∧ (low = 0 → lpa2 = true)) ∨
     (high = 2 ∧ g = .kb16 ∧ low ≠ 0 ∧ (low = 1 → lpa2 = true)) ∨
     (high = 3 ∧ g = .kb64 ∧ low ≠ 0))

/-- The lowest bit of the VA field that is compared: the granule's ignored low bits, in numbers (R63). -/
def Claims.lowestComparedVABit : Granule → Nat
  | .kb4 => 0
  | .kb16 => 2
  | .kb64 => 4

/-- "all the following requirements", one clause each (R70, R72 to R77). -/
def Claims.MeetsAllRequirements (c : Config) (r : TlbiRecord) (e : TlbEntry) : Prop :=
  let va := r.op.extractLsb' 64 44
  let asid := r.op.extractLsb' 48 16
  let ttl := r.op.extractLsb' 44 4
  (c.res0Policy = .nothingRequired →
    r.op.extractLsb' 108 20 = 0#20 ∧ r.op.extractLsb' 0 44 = 0#44 ∧ (c.featTTL = false → ttl = 0#4) ∧
    (c.featTTL = true → ttl.extractLsb' 2 2 = 0#2 → ttl.extractLsb' 0 2 = 0#2)) ∧
  e.stage1 = true ∧ (e.combined = true → c.combinedS1S2Required = true) ∧
  (e.descBits = .bits128 ∨ (c.featTTL = true → ttl.extractLsb' 2 2 = 0#2)) ∧
  (∃ a : Addr, (∃ i ∈ e.range, i.lo ≤ a ∧ a ≤ i.hi) ∧
    ∀ j, Claims.lowestComparedVABit e.granule ≤ j → j < 44 → a.getLsbD (j + 12) = va.getLsbD j) ∧
  ((e.final = true ∧ e.global = true) ∨ e.asid = asid) ∧
  e.regime = r.regime ∧ e.secstate = r.security ∧ (r.vmid = .vmidNone ∨ e.vmid = r.vmid) ∧
  (c.featTTL = true → ∀ g l, Claims.TtlNames c.featLPA2 ttl g l →
    e.granule = g ∧ (e.final = true → e.level = l) ∧
    (e.final = false → e.level < l ∧ c.ttlNonLeafRequired = true))

/-- What of a PE no instruction and no agent changes: all but its `pc` and its TLB. -/
def Claims.SamePEButPcAndTlb (a b : PE) : Prop := b = { a with pc := b.pc, tlb := b.tlb }

/-! ## Encoding -/

/-- R46, R47. Under any word layout (of the form of log 21) and any pair rule: the word decodes to an instruction exactly when its fixed bits are
right, its five fields have the values of the instruction, and the pair rule gives its register number a partner. -/
def Obligations.SourceFieldsSelectTheInstruction : Prop :=
  ∀ (l : WordLayout) (rule : PairRule) (w : Word) (t t2 : Reg),
    (decodeWord l rule w = .ok (.tlbipVae1 t t2) ↔
      w &&& l.fixedMask = l.fixedBits ∧ (sysFields l w).op0 = 0b01#2 ∧ (sysFields l w).op1 = 0b000#3 ∧
      (sysFields l w).crn = 0b1000#4 ∧ (sysFields l w).crm = 0b0111#4 ∧ (sysFields l w).op2 = 0b001#3 ∧
      rtField l w = t ∧ pairOf rule t = some t2) ∧
    (decodeWord l rule w = .ok (.tlbipVae1nxs t t2) ↔
      w &&& l.fixedMask = l.fixedBits ∧ (sysFields l w).op0 = 0b01#2 ∧ (sysFields l w).op1 = 0b000#3 ∧
      (sysFields l w).crn = 0b1001#4 ∧ (sysFields l w).crm = 0b0111#4 ∧ (sysFields l w).op2 = 0b001#3 ∧
      rtField l w = t ∧ pairOf rule t = some t2)

/-- 30_encoding.md section 2 (the default layout and pair rule are PRESUMED: log 21, log 22): a word is the instruction
when `(w & mask) == match`, its `Rt` is `w[4:0]`, and `t2` is 31 for 31, `t + 1` for even `t`; any other word is
rejected by name. -/
def Obligations.WordMatchesMaskAndPairRule : Prop :=
  ∀ w : Word,
    decodeWord WordLayout.default PairRule.default w =
      if w &&& 0xFFFFFFE0#32 = 0xD5488720#32 ∨ w &&& 0xFFFFFFE0#32 = 0xD5489720#32 then
        (if w.extractLsb' 0 5 = 31#5 then
          .ok (if w.getLsbD 12 then .tlbipVae1nxs 31#5 31#5 else .tlbipVae1 31#5 31#5)
        else if w.getLsbD 0 then .error (.unpairedRegister w)
        else .ok (if w.getLsbD 12 then .tlbipVae1nxs (w.extractLsb' 0 5) (w.extractLsb' 0 5 + 1#5)
          else .tlbipVae1 (w.extractLsb' 0 5) (w.extractLsb' 0 5 + 1#5)))
      else .error (.outsideSpec w)

/-- Decoding the bytes of any well-formed instruction gives it back, and leaves the bytes after it. -/
def Obligations.DecodeOfEncodeIsTheInstruction : Prop :=
  ∀ (i : Instr) (rest : List Byte), i.wellFormed PairRule.default = true →
    decode WordLayout.default PairRule.default (encode WordLayout.default i ++ rest) = .ok (i, rest)

/-- Bytes that decode are four bytes that the decoded instruction encodes to, and the instruction is well formed: every
word has one meaning. -/
def Obligations.DecodedWordEncodesBack : Prop :=
  ∀ (bs rest : List Byte) (i : Instr), decode WordLayout.default PairRule.default bs = .ok (i, rest) →
    i.wellFormed PairRule.default = true ∧ bs = encode WordLayout.default i ++ rest

/-- 95_test_vectors.md section 2.1: the seven words written there decode to the instructions beside them, and the four
refused words to none (the layout and the pair rule are PRESUMED: log 21, log 22). -/
def Obligations.SpecWordsDecode : Prop :=
  decodeTableWord 32 0xD5488720 = some (.tlbipVae1 0#5 1#5) ∧
  decodeTableWord 32 0xD5488722 = some (.tlbipVae1 2#5 3#5) ∧
  decodeTableWord 32 0xD548873E = some (.tlbipVae1 30#5 31#5) ∧
  decodeTableWord 32 0xD548873F = some (.tlbipVae1 31#5 31#5) ∧
  decodeTableWord 32 0xD5489720 = some (.tlbipVae1nxs 0#5 1#5) ∧
  decodeTableWord 32 0xD5489722 = some (.tlbipVae1nxs 2#5 3#5) ∧
  decodeTableWord 32 0xD548973C = some (.tlbipVae1nxs 28#5 29#5) ∧
  decodeTableWord 32 0xD5488721 = none ∧ decodeTableWord 32 0xD5088720 = none ∧
  decodeTableWord 32 0xD5488740 = none ∧ decodeTableWord 32 0xD548A720 = none

/-! ## The operand -/

/-- R60. Each field is cut out at its stated bits, and the fields joined are the operand. -/
def Obligations.OperandFieldsPartition : Prop :=
  ∀ op : Operand,
    opRes0High op ++ opVA op ++ opASID op ++ opTTL op ++ opRes0Low op = op ∧
    (∀ i < 20, (opRes0High op).getLsbD i = op.getLsbD (108 + i)) ∧
    (∀ i < 44, (opVA op).getLsbD i = op.getLsbD (64 + i)) ∧
    (∀ i < 16, (opASID op).getLsbD i = op.getLsbD (48 + i)) ∧
    (∀ i < 4, (opTTL op).getLsbD i = op.getLsbD (44 + i)) ∧
    (∀ i < 44, (opRes0Low op).getLsbD i = op.getLsbD i)

/-- The table of 30_encoding.md section 3: which register bits each operand field is. It rests on the order of
concatenation, PRESUMED (log 24). -/
def Obligations.OperandFieldsComeFromTheRegisters : Prop :=
  ∀ (pe : PE) (t t2 : Reg),
    opRes0High (operandOf pe t t2) = (pe.readX t2).extractLsb' 44 20 ∧
    opVA (operandOf pe t t2) = (pe.readX t2).extractLsb' 0 44 ∧
    opASID (operandOf pe t t2) = (pe.readX t).extractLsb' 48 16 ∧
    opTTL (operandOf pe t t2) = (pe.readX t).extractLsb' 44 4 ∧
    opRes0Low (operandOf pe t t2) = (pe.readX t).extractLsb' 0 44

/-- With `t == 31` and `t2 == 31` the record's operand is 128 zero bits, whatever the registers hold: the corner case of
41_tlbip_vae1.md section 2 and 30_encoding.md section 3 (register 31 reads as zero: PRESUMED, log 23). -/
def Obligations.RegisterThirtyOnePairGivesZeroOperand : Prop :=
  ∀ (s u : State) (i : Instr), i.rt = 31#5 → i.rt2 = 31#5 → exec i s = .next u →
    ∃ p r l, u.pending = s.pending ++ [{ issuer := p, record := r, applied := l }] ∧ r.op = 0#128

/-- Writing a register other than the two the instruction names changes neither what it issues nor whether it does, and
a write to register 31 is discarded, so it changes nothing whichever registers the instruction names (10_state.md
section 2; register 31: PRESUMED, log 23). -/
def Obligations.OtherRegistersDoNotMatter : Prop :=
  ∀ (s u : State) (i : Instr) (p : PEId) (pe : PE) (j : Reg) (v : DWord), Claims.Executes s p pe →
    ((j ≠ i.rt ∧ j ≠ i.rt2) ∨ j = 31#5) → exec i s = .next u →
    exec i (s.modifyPE p fun q => q.writeX j v) = .next (u.modifyPE p fun q => q.writeX j v)

/-! ## Which entries must go -/

/-- 40_tlbip_operation.md sections 1 and 3 (R63, R73 with the decisions D24, D25): the computed test says exactly that some
address of the entry's range agrees with the operand on bits [55:12] for an entry of a 4KB granule, [55:14] for 16KB,
[55:16] for 64KB. -/
def Obligations.CoversVAIsAnAddressOfTheRange : Prop :=
  ∀ (op : Operand) (e : TlbEntry),
    coversVA op e = true ↔
      ∃ a : Addr, (∃ i ∈ e.range, i.lo ≤ a ∧ a ≤ i.hi) ∧
        ∀ j, Claims.lowestComparedVABit e.granule ≤ j → j < 44 → a.getLsbD (j + 12) = (opVA op).getLsbD j

/-- 40_tlbip_operation.md section 3: `Required` is all the requirements together, each spelled out (its decisions D9 to
D14, D17, D24, D25 are the spec's own). -/
def Obligations.RequiredIsEveryRequirement : Prop :=
  ∀ (c : Config) (r : TlbiRecord) (e : TlbEntry),
    required c r e = true ↔ Claims.MeetsAllRequirements c r e

/-- 40_tlbip_operation.md section 1 (R63 read per entry, decision D25): with a 16KB granule bits [1:0] of the VA field
have no effect, with a 64KB granule bits [3:0]. -/
def Obligations.GranuleIgnoresLowVABits : Prop :=
  ∀ (c : Config) (r r' : TlbiRecord) (e : TlbEntry),
    ((e.granule = .kb16 ∧ ∀ j, 66 ≤ j → r'.op.getLsbD j = r.op.getLsbD j) ∨
      (e.granule = .kb64 ∧ ∀ j, 68 ≤ j → r'.op.getLsbD j = r.op.getLsbD j)) →
    (∀ j < 64, r'.op.getLsbD j = r.op.getLsbD j) → r' = { r with op := r'.op } →
    required c r' e = required c r e

/-- 40_tlbip_operation.md section 1 (R70, decision D13): with the policy `ignore` the RES0 bits of the operand do not
matter: operands with the same VA and ASID, and the same TTL where TTL has a meaning, require the same entries to go. -/
def Obligations.IgnorePolicyDisregardsReservedBits : Prop :=
  ∀ (c : Config) (r r' : TlbiRecord) (e : TlbEntry), c.res0Policy = .ignore → r' = { r with op := r'.op } →
    opVA r'.op = opVA r.op → opASID r'.op = opASID r.op →
    (c.featTTL = true → opTTL r'.op = opTTL r.op ∨
      (ttlHigh (opTTL r'.op) = 0#2 ∧ ttlHigh (opTTL r.op) = 0#2)) →
    required c r' e = required c r e

/-- 40_tlbip_operation.md section 1 (R65, decision D14): where the implementation has 8 bits of ASID, a non-zero upper
byte in the operand's ASID matches no entry that is not a global final-level entry. -/
def Obligations.UpperAsidByteMatchesNoNonGlobalEntry : Prop :=
  ∀ (c : Config) (r : TlbiRecord) (e : TlbEntry), c.asidBits = .bits8 → entryWf c e = true →
    ¬ (e.final = true ∧ e.global = true) → (opASID r.op).extractLsb' 8 8 ≠ 0#8 → required c r e = false

/-! ## The instructions -/

/-- R110. Executed by PE `pe`: `Undefined()` arises only where a feature is absent or at EL0, the trap to EL2 with code
`0x14` only at EL1 under the table's conditions; where the condition of one of the two holds and not that of the other,
that one is raised, and where some condition holds, one of the two; no other fault and no refusal ever, and a next state
where no condition holds. (Where both conditions hold: `FeatureAbsenceComesBeforeTheTraps`.) -/
def Obligations.ExceptionsAreExactlyTheTable : Prop :=
  ∀ (i : Instr) (s : State) (p : PEId) (pe : PE), Claims.Executes s p pe →
    let undefinedHolds := ¬ Claims.Present s.cfg i ∨ pe.el = .el0
    let trapHolds := pe.el = .el1 ∧ Claims.TrapsFromEl1 s.cfg pe i
    (exec i s = .fault .undefined → undefinedHolds) ∧
    (exec i s = .fault (.systemAccessTrap .el2 0x14) → trapHolds) ∧
    (undefinedHolds → ¬ trapHolds → exec i s = .fault .undefined) ∧
    (trapHolds → ¬ undefinedHolds → exec i s = .fault (.systemAccessTrap .el2 0x14)) ∧
    (undefinedHolds ∨ trapHolds →
      exec i s = .fault .undefined ∨ exec i s = .fault (.systemAccessTrap .el2 0x14)) ∧
    (¬ undefinedHolds → ¬ trapHolds → ∃ t, exec i s = .next t)

/-- 60_exceptions.md section 3 (R113): a feature that is absent is reported before any trap, at every level and whatever
the control fields (for FEAT_D128 this is the decision D5: log 40). -/
def Obligations.FeatureAbsenceComesBeforeTheTraps : Prop :=
  ∀ (i : Instr) (s : State) (p : PEId) (pe : PE), Claims.Executes s p pe → ¬ Claims.Present s.cfg i →
    exec i s = .fault .undefined

/-- 41_tlbip_vae1.md section 2, the EL1 branch: where no trap applies `TLBIP VAE1` completes, issuing for the EL1&0
regime of the current VMID; `FB` selects the broadcast and `FnXS` the exclusion of XS accesses (the next state's shape
rests on the decisions D3, D15; the order of the operand's halves is PRESUMED, log 24; the Security state is D21's,
log 13). -/
def Obligations.Vae1IssuesAtEl1 : Prop :=
  ∀ (s : State) (p : PEId) (pe : PE) (t t2 : Reg), Claims.Executes s p pe → s.cfg.featD128 = true →
    pe.el = .el1 → ¬ Claims.TrapsFromEl1 s.cfg pe (.tlbipVae1 t t2) →
    ∃ u, exec (.tlbipVae1 t t2) s = .next u ∧ Claims.Issued s p
      { security := Claims.security s.cfg pe, regime := .el10, vmid := pe.vmidReads
        shareability := if el2Enabled s.cfg pe = true ∧ pe.hcrEl2.fb = 1#1 then .ish else .nsh
        level := .any
        attr := if s.cfg.featXS = true ∧ s.cfg.featHCX = true ∧ pe.hcrxEl2EnabledReads = true ∧
          pe.hcrxEl2.fnxs = 1#1 then .excludeXS else .allAttr
        op := pe.readX t2 ++ pe.readX t } u

/-- 42_tlbip_vae1nxs.md section 2, the EL1 branch: as `TLBIP VAE1`, with its own trap condition and `TLBI_ExcludeXS` on
every path (the next state's shape rests on the decisions D3, D15; the order of the operand's halves is PRESUMED,
log 24; the Security state is D21's, log 13). -/
def Obligations.NxsIssuesAtEl1 : Prop :=
  ∀ (s : State) (p : PEId) (pe : PE) (t t2 : Reg), Claims.Executes s p pe → s.cfg.featD128 = true →
    s.cfg.featXS = true → pe.el = .el1 → ¬ Claims.TrapsFromEl1 s.cfg pe (.tlbipVae1nxs t t2) →
    ∃ u, exec (.tlbipVae1nxs t t2) s = .next u ∧ Claims.Issued s p
      { security := Claims.security s.cfg pe, regime := .el10, vmid := pe.vmidReads
        shareability := if el2Enabled s.cfg pe = true ∧ pe.hcrEl2.fb = 1#1 then .ish else .nsh
        level := .any, attr := .excludeXS, op := pe.readX t2 ++ pe.readX t } u

/-- 41_tlbip_vae1.md section 2, the EL2 and EL3 branches: `TLBIP VAE1` always completes, on the executing PE only, for the
EL2&0 regime without a VMID when `{E2H, TGE}` is `{1, 1}` and for the EL1&0 regime of the current VMID otherwise
(the next state's shape rests on the decisions D3, D15; `{E2H, TGE}` without EL2 on D26, log 14; the order of the operand's
halves is PRESUMED, log 24; the Security state, one for EL1 and EL2, is D21's, log 13). -/
def Obligations.Vae1IssuesAboveEl1 : Prop :=
  ∀ (s : State) (p : PEId) (pe : PE) (t t2 : Reg), Claims.Executes s p pe → s.cfg.featD128 = true →
    (pe.el = .el2 ∨ pe.el = .el3) →
    ∃ u, exec (.tlbipVae1 t t2) s = .next u ∧
      (Claims.HostRegime s.cfg pe → Claims.Issued s p
        { security := Claims.security s.cfg pe, regime := .el20, vmid := .vmidNone, shareability := .nsh
          level := .any, attr := .allAttr, op := pe.readX t2 ++ pe.readX t } u) ∧
      (¬ Claims.HostRegime s.cfg pe → Claims.Issued s p
        { security := Claims.security s.cfg pe, regime := .el10, vmid := pe.vmidReads, shareability := .nsh
          level := .any, attr := .allAttr, op := pe.readX t2 ++ pe.readX t } u)

/-- 42_tlbip_vae1nxs.md section 2, the EL2 and EL3 branches: as `TLBIP VAE1`, with `TLBI_ExcludeXS` (decisions D3, D15;
D26, log 14; the order of the operand's halves is PRESUMED, log 24; the Security state, one for EL1 and EL2, is D21's,
log 13). -/
def Obligations.NxsIssuesAboveEl1 : Prop :=
  ∀ (s : State) (p : PEId) (pe : PE) (t t2 : Reg), Claims.Executes s p pe → s.cfg.featD128 = true →
    s.cfg.featXS = true → (pe.el = .el2 ∨ pe.el = .el3) →
    ∃ u, exec (.tlbipVae1nxs t t2) s = .next u ∧
      (Claims.HostRegime s.cfg pe → Claims.Issued s p
        { security := Claims.security s.cfg pe, regime := .el20, vmid := .vmidNone, shareability := .nsh
          level := .any, attr := .excludeXS, op := pe.readX t2 ++ pe.readX t } u) ∧
      (¬ Claims.HostRegime s.cfg pe → Claims.Issued s p
        { security := Claims.security s.cfg pe, regime := .el10, vmid := pe.vmidReads, shareability := .nsh
          level := .any, attr := .excludeXS, op := pe.readX t2 ++ pe.readX t } u)

/-- 42_tlbip_vae1nxs.md section 2, corner cases: with `TTLB` clear and the fine-grained trap on, `TLBIP VAE1` traps, and
`TLBIP VAE1NXS` does not when `FGTnXS` switches its trap off or FEAT_HCX is not implemented. -/
def Obligations.FineGrainedTrapCanSpareTheNxsForm : Prop :=
  ∀ (s : State) (p : PEId) (pe : PE) (t t2 : Reg), Claims.Executes s p pe → s.cfg.featD128 = true →
    s.cfg.featXS = true → s.cfg.featFGT = true → pe.el = .el1 → el2Enabled s.cfg pe = true →
    pe.hcrEl2.ttlb = 0#1 → (s.cfg.haveEL3 = true → pe.scrEl3.fgten = 1#1) → pe.hfgitrEl2.tlbivae1 = 1#1 →
    (s.cfg.featHCX = false ∨ (pe.hcrxEl2EnabledReads = true ∧ pe.hcrxEl2.fgtnxs = 1#1)) →
    exec (.tlbipVae1 t t2) s = .fault (.systemAccessTrap .el2 0x14) ∧
    ∃ u, exec (.tlbipVae1nxs t t2) s = .next u

/-- The frame of both instructions (10_state.md R12, R15, R26, 20_memory.md R30, 40_tlbip_operation.md R83, each of
which the spec derives): no general register, control field or level of any PE changes, no `pc` but the executing PE's,
no byte of memory, no access in flight, no earlier element of `Pending`; and no TLB, but that with TLBIAtomic those of
the issued record's scope, other PEs' among them, may lose entries (the clauses about TLBs and `Pending` rest on the
decision D15; log 36). -/
def Obligations.InstructionsLeaveAllElseAlone : Prop :=
  ∀ (i : Instr) (s u : State) (p : PEId) (pe : PE), Claims.Executes s p pe → exec i s = .next u →
    u.cfg = s.cfg ∧ (∀ a : Addr, u.mem.read a = s.mem.read a) ∧ u.mem = s.mem ∧ u.inFlight = s.inFlight ∧
    u.turn = s.turn ∧ u.tick = s.tick ∧ u.pes.length = s.pes.length ∧
    (∀ (q : PEId) (pq pq' : PE), s.pes[q]? = some pq → u.pes[q]? = some pq' →
      Claims.SamePEButPcAndTlb pq pq' ∧ (q ≠ p → pq'.pc = pq.pc) ∧ (∀ e ∈ pq'.tlb, e ∈ pq.tlb)) ∧
    ∃ r l, u.pending = s.pending ++ [{ issuer := p, record := r, applied := l }] ∧
      ∀ (q : PEId) (pq pq' : PE), s.pes[q]? = some pq → u.pes[q]? = some pq' →
        (s.cfg.tlbiAtomic = false ∨ q ∉ scope s p r.shareability) → pq'.tlb = pq.tlb

/-- R80. Where both variants complete in one state with one operand, they issue records that differ at most in `attr`,
with the same required entries, the same scope and the same effect on any TLB. (What each leaves of the PEs:
`VariantsLeaveTheSamePEs`.) -/
def Obligations.VariantsPerformTheSameInvalidation : Prop :=
  ∀ (s u u' : State) (t t2 : Reg), exec (.tlbipVae1 t t2) s = .next u → exec (.tlbipVae1nxs t t2) s = .next u' →
    ∃ v v', u.pending = s.pending ++ [v] ∧ u'.pending = s.pending ++ [v'] ∧
      v'.issuer = v.issuer ∧ v'.record = { v.record with attr := .excludeXS } ∧
      (∀ e, required s.cfg v'.record e = required s.cfg v.record e) ∧
      scope s v'.issuer v'.record.shareability = scope s v.issuer v.record.shareability ∧
      ∀ keeps tlb, invalidateTlb s.cfg v'.record keeps tlb = invalidateTlb s.cfg v.record keeps tlb

/-- The model's choice beside R80: where both variants complete in one state with one operand they leave the same PEs, and
have been applied to the same PEs. The `pc` is the decision D3's; with TLBIAtomic (D15, log 36) the entries that go
beyond the required ones are the same because the free value of log 10 depends on the counter, the PE and the entry, and
not on the record. -/
def Obligations.VariantsLeaveTheSamePEs : Prop :=
  ∀ (s u u' : State) (t t2 : Reg), exec (.tlbipVae1 t t2) s = .next u → exec (.tlbipVae1nxs t t2) s = .next u' →
    u'.pes = u.pes ∧ u'.pending.map Invalidation.applied = u.pending.map Invalidation.applied

/-- 41_tlbip_vae1.md sections 2 and 3 (R94, derived from the listing): at EL2 and EL3 the fields `TTLB`, `FB`, `FGTEn`,
`TLBIVAE1`, `FnXS` and `FGTnXS` have no influence on what is issued. -/
def Obligations.TrapControlsDoNotMatterAboveEl1 : Prop :=
  ∀ (i : Instr) (s u : State) (p : PEId) (pe : PE) (ttlb fb fgten tlbivae1 fnxs fgtnxs : BitVec 1),
    Claims.Executes s p pe → (pe.el = .el2 ∨ pe.el = .el3) → exec i s = .next u →
    ∃ u', exec i (s.modifyPE p fun q => { q with
        hcrEl2 := { q.hcrEl2 with ttlb := ttlb, fb := fb }, scrEl3 := { q.scrEl3 with fgten := fgten }
        hfgitrEl2 := { tlbivae1 := tlbivae1 }, hcrxEl2 := { fnxs := fnxs, fgtnxs := fgtnxs } }) = .next u' ∧
      u'.pending = u.pending

/-- 60_exceptions.md section 6 and 41_tlbip_vae1.md section 2: where `EL2Enabled()` is false, `TTLB`, `FB`, `FGTEn`,
`TLBIVAE1` and `FGTnXS` have no influence on what an execution at EL1 issues, and it never traps. (`HCRX_EL2.FnXS` is not
among them: it does not depend on `EL2Enabled()`.) -/
def Obligations.El2ControlsDoNotMatterWhenDisabled : Prop :=
  ∀ (i : Instr) (s : State) (p : PEId) (pe : PE) (ttlb fb fgten tlbivae1 fgtnxs : BitVec 1),
    Claims.Executes s p pe → pe.el = .el1 → el2Enabled s.cfg pe = false → Claims.Present s.cfg i →
    ∃ u u', exec i s = .next u ∧ exec i (s.modifyPE p fun q => { q with
        hcrEl2 := { q.hcrEl2 with ttlb := ttlb, fb := fb }, scrEl3 := { q.scrEl3 with fgten := fgten }
        hfgitrEl2 := { tlbivae1 := tlbivae1 }, hcrxEl2 := { q.hcrxEl2 with fgtnxs := fgtnxs } }) = .next u' ∧
      u'.pending = u.pending

/-- 20_memory.md section 1 (R30, derived): the instructions read no memory: with any other memory they do the same, and
leave that memory as it was. -/
def Obligations.MemoryIsNotRead : Prop :=
  ∀ (i : Instr) (s u : State) (m : Memory),
    (exec i s = .next u → exec i (s.setMem m) = .next (u.setMem m)) ∧
    (∀ f, exec i s = .fault f → exec i (s.setMem m) = .fault f)

/-! ## The invalidation agent -/

/-- 40_tlbip_operation.md sections 4 and 6 (R79, R85 with the decisions D8, D15): the apply step leaves in the TLB of the
PE exactly those entries that are not required to go and that the free value keeps, adds the PE to `applied`, and
changes nothing else. -/
def Obligations.ApplyStepRemovesTheRequired : Prop :=
  ∀ (s : State) (i : Nat) (q : PEId) (v : Invalidation) (pe : PE), s.turn = .apply i q →
    s.pending[i]? = some v → q ∈ scope s v.issuer v.record.shareability → q ∉ v.applied →
    s.pes[q]? = some pe →
    ∃ t pe', step s = .next t ∧ t.pending = s.pending.set i { v with applied := q :: v.applied } ∧
      t.pes[q]? = some pe' ∧ pe' = { pe with tlb := pe'.tlb } ∧
      (∀ e, e ∈ pe'.tlb ↔ e ∈ pe.tlb ∧ required s.cfg v.record e = false ∧
        Config.freeKeeps s.tick q e = true) ∧
      (∀ q', q' ≠ q → t.pes[q']? = s.pes[q']?) ∧ t.cfg = s.cfg ∧ t.mem = s.mem ∧ t.inFlight = s.inFlight

/-- 40_tlbip_operation.md section 4 (R78): an invalidation that is not broadcast reaches the executing PE and no other; one
that is broadcast reaches the executing PE and those PEs of the machine that the configuration's table lists in its
Inner Shareable domain (what `Shareability_ISH` reaches is PRESUMED, log 34; the table's form is log 16). -/
def Obligations.ScopeIsTheIssuerOrItsDomain : Prop :=
  ∀ (s : State) (p q : PEId),
    (q ∈ scope s p .nsh ↔ q = p) ∧
    (q ∈ scope s p .ish ↔
      q = p ∨ (q < s.pes.length ∧ ∃ l, s.cfg.innerShareable[p]? = some l ∧ q ∈ l))

/-- 70_reset_and_hazards.md section 3 (R135, derived from R78): an apply step for an invalidation that is not broadcast
changes no PE but the one that issued it. -/
def Obligations.NonShareableReachesTheIssuerOnly : Prop :=
  ∀ (s t : State) (i : Nat) (q q' : PEId) (v : Invalidation), s.turn = .apply i q → s.pending[i]? = some v →
    v.record.shareability = .nsh → step s = .next t → q' ≠ v.issuer → t.pes[q']? = s.pes[q']?

/-- R81. An invalidation with `TLBI_AllAttr` leaves `Pending` by the complete step only when it has been applied to every
PE of its scope and no access in flight of a PE of the scope used an entry it requires to go. -/
def Obligations.CompletionWaitsForEveryAccess : Prop :=
  ∀ (s t : State) (i : Nat) (v : Invalidation), s.turn = .complete i → s.pending[i]? = some v →
    v.record.attr = .allAttr → step s = .next t → t.pending ≠ s.pending →
    (∀ q ∈ scope s v.issuer v.record.shareability, q ∈ v.applied) ∧
    ∀ a ∈ s.inFlight, a.pe ∈ scope s v.issuer v.record.shareability →
      ¬ ∃ e ∈ a.used, required s.cfg v.record e = true

/-- R82. With `TLBI_ExcludeXS` an invalidation is complete only when applied to every PE of its scope and when no access in
flight of a PE of the scope with XS attribute 0 used an entry it requires to go; an access whose XS attribute is 1
holds no completion up, whatever entries it used; and `TLBI_ExcludeXS` is what `TLBIP VAE1NXS` passes on every path, and
`TLBIP VAE1` at EL1 exactly under the stated condition. -/
def Obligations.NxsCompletionWaitsForXSZeroOnly : Prop :=
  (∀ (s : State) (i : Nat) (v : Invalidation), s.turn = .complete i → s.pending[i]? = some v →
    v.record.attr = .excludeXS →
    (∀ t, step s = .next t → t.pending ≠ s.pending →
      (∀ q ∈ scope s v.issuer v.record.shareability, q ∈ v.applied) ∧
      ∀ a ∈ s.inFlight, a.pe ∈ scope s v.issuer v.record.shareability → a.xs = 0#1 →
        ¬ ∃ e ∈ a.used, required s.cfg v.record e = true) ∧
    ∀ (a : Access) (t t' : State), a.xs = 1#1 → step s = .next t →
      step (s.setInFlight (a :: s.inFlight)) = .next t' → t'.pending = t.pending) ∧
  ∀ (i : Instr) (s u : State) (p : PEId) (pe : PE), Claims.Executes s p pe → exec i s = .next u →
    ∃ v, u.pending = s.pending ++ [v] ∧
      (v.record.attr = .excludeXS ↔
        i.variant = .vae1nxs ∨ (pe.el = .el1 ∧ s.cfg.featXS = true ∧ s.cfg.featHCX = true ∧
          pe.hcrxEl2EnabledReads = true ∧ pe.hcrxEl2.fnxs = 1#1))

/-- 40_tlbip_operation.md section 6 (R86, decision D15): where the scope is applied exactly and no access is waited for,
the complete step takes the invalidation out of `Pending` and changes nothing else. -/
def Obligations.CompletionHappensWhenAllowed : Prop :=
  ∀ (s : State) (i : Nat) (v : Invalidation), s.turn = .complete i → s.pending[i]? = some v →
    (∀ q, q ∈ v.applied ↔ q ∈ scope s v.issuer v.record.shareability) →
    (∀ a ∈ s.inFlight, a.pe ∈ scope s v.issuer v.record.shareability →
      (v.record.attr = .excludeXS → a.xs = 0#1) → ∀ e ∈ a.used, required s.cfg v.record e = false) →
    ∃ t, step s = .next t ∧ t.pending = s.pending.eraseIdx i ∧ t.pes = s.pes ∧ t.cfg = s.cfg ∧
      t.mem = s.mem ∧ t.inFlight = s.inFlight

/-- 40_tlbip_operation.md section 1 (R65, decision D14; log 32): in a well-formed machine with 8 bits of ASID, an invalidation
whose operand has a non-zero upper ASID byte is held up by no access that used no global final-level entry: applied
exactly to its scope, it completes. -/
def Obligations.UpperAsidByteIsNotHeldUpByNonGlobalEntries : Prop :=
  ∀ (s : State) (i : Nat) (v : Invalidation), s.wf = true → s.cfg.asidBits = .bits8 →
    (opASID v.record.op).extractLsb' 8 8 ≠ 0#8 → s.turn = .complete i → s.pending[i]? = some v →
    (∀ q, q ∈ v.applied ↔ q ∈ scope s v.issuer v.record.shareability) →
    (∀ a ∈ s.inFlight, ∀ e ∈ a.used, ¬ (e.final = true ∧ e.global = true)) →
    ∃ t, step s = .next t ∧ t.pending = s.pending.eraseIdx i

/-- 20_memory.md section 8 (R37), for the accesses of PEs in scope as R81 reads it: once an invalidation is complete, no
entry it was required to invalidate is in the TLB of any PE in its scope, and no memory access of such a PE translated
with such an entry is still in flight (for the nXS form: none with XS attribute 0). -/
def Obligations.NothingRequiredIsLeftAfterCompletion : Prop :=
  ∀ (s t : State) (i : Nat) (v : Invalidation), s.appliedClean → s.turn = .complete i →
    s.pending[i]? = some v → step s = .next t → t.pending ≠ s.pending →
    (∀ q ∈ scope s v.issuer v.record.shareability, ∀ pe, t.pes[q]? = some pe → ∀ e ∈ pe.tlb,
      required t.cfg v.record e = false) ∧
    ∀ a ∈ t.inFlight, a.pe ∈ scope s v.issuer v.record.shareability →
      (v.record.attr = .allAttr ∨ a.xs = 0#1) → ∀ e ∈ a.used, required t.cfg v.record e = false

/-- 70_reset_and_hazards.md section 3 (R133, derived): whatever lets the plain form complete lets the nXS form of the
same invalidation complete. -/
def Obligations.PlainCompletionImpliesNxsCompletion : Prop :=
  ∀ (s : State) (v : Invalidation), v.record.attr = .allAttr → canComplete s v = true →
    canComplete s { v with record := { v.record with attr := .excludeXS } } = true

/-- 10_state.md section 8 (R24, decision D15): when an access completes it leaves `InFlight`, the others stay, and nothing
else changes. -/
def Obligations.CompletedAccessLeavesInFlight : Prop :=
  ∀ (s : State) (j : Nat) (pre post : List Access) (a : Access), s.turn = .accessDone j →
    s.inFlight = pre ++ a :: post → pre.length = j →
    ∃ t, step s = .next t ∧ t.inFlight = pre ++ post ∧ t.pes = s.pes ∧ t.pending = s.pending ∧
      t.cfg = s.cfg ∧ t.mem = s.mem

/-- The model's choice (log 9), which the spec leaves to its step relation: a turn whose step is not enabled changes
nothing but the turn and its counter. -/
def Obligations.TurnsNotEnabledChangeNothing : Prop :=
  ∀ s : State,
    ((∃ p, s.turn = .execute p ∧ s.pes.length ≤ p) ∨
      (∃ i q, s.turn = .apply i q ∧ ∀ v, s.pending[i]? = some v →
        q ∉ scope s v.issuer v.record.shareability ∨ q ∈ v.applied) ∨
      (∃ i, s.turn = .complete i ∧ ∀ v, s.pending[i]? = some v →
        (∃ q ∈ scope s v.issuer v.record.shareability, q ∉ v.applied) ∨
        ∃ a ∈ s.inFlight, a.pe ∈ scope s v.issuer v.record.shareability ∧
          (v.record.attr = .allAttr ∨ a.xs = 0#1) ∧ ∃ e ∈ a.used, required s.cfg v.record e = true) ∨
      (∃ j, s.turn = .accessDone j ∧ s.inFlight.length ≤ j)) →
    step s = .next { s with turn := Config.freeTurn s.tick, tick := s.tick + 1 }

/-! ## The step -/

/-- When the four bytes at the executing PE's `pc` decode to an instruction, the step is `exec` of it; around it the step
only passes the turn on (the fetch's place, alignment and byte order: log 19, log 25; the turn: log 8). -/
def Obligations.StepRunsTheDecodedInstruction : Prop :=
  ∀ (s : State) (p : PEId) (pe : PE) (i : Instr) (b0 b1 b2 b3 : Byte), Claims.Executes s p pe →
    pe.pc.toNat % 4 = 0 → s.mem.read pe.pc = some b0 → s.mem.read (pe.pc + 1#64) = some b1 →
    s.mem.read (pe.pc + 2#64) = some b2 → s.mem.read (pe.pc + 3#64) = some b3 →
    decodeWord s.cfg.wordLayout s.cfg.pairRule (b3 ++ b2 ++ b1 ++ b0) = .ok i →
    step s = match exec i s with
      | .next t => .next { t with turn := Config.freeTurn t.tick, tick := t.tick + 1 }
      | .fault f => .fault f
      | .refused r => .refused r

/-- Where the executing PE's `pc` is not a multiple of 4, or its four bytes are a word that decodes to nothing, the step is
refused by name; where a byte has no value, it faults (decisions D2, D3, D27; log 19), whatever the
Exception level and the features (log 41). -/
def Obligations.StepStopsWhereNoInstructionIs : Prop :=
  ∀ (s : State) (p : PEId) (pe : PE), Claims.Executes s p pe →
    (pe.pc.toNat % 4 ≠ 0 → step s = .refused (.misalignedPc pe.pc)) ∧
    (pe.pc.toNat % 4 = 0 →
      (∀ k < 4, s.mem.read (pe.pc + BitVec.ofNat 64 k) = none → step s = .fault (.fetchUnwritten pe.pc)) ∧
      ∀ b0 b1 b2 b3 : Byte, s.mem.read pe.pc = some b0 → s.mem.read (pe.pc + 1#64) = some b1 →
        s.mem.read (pe.pc + 2#64) = some b2 → s.mem.read (pe.pc + 3#64) = some b3 →
        ∀ w, (decodeWord s.cfg.wordLayout s.cfg.pairRule (b3 ++ b2 ++ b1 ++ b0) = .error (.outsideSpec w) →
            step s = .refused (.outsideSpec w)) ∧
          (decodeWord s.cfg.wordLayout s.cfg.pairRule (b3 ++ b2 ++ b1 ++ b0) = .error (.unpairedRegister w) →
            step s = .refused (.unpairedRegister w)))

/-- A word placed for the next fetch is the instruction the next step runs (log 20). -/
def Obligations.PlacedWordRunsNext : Prop :=
  ∀ (s : State) (w : Nat) (i : Instr), 0 < s.pes.length → s.cfg.wordLayout = WordLayout.default →
    s.cfg.pairRule = PairRule.default → decodeTableWord 32 w = some i →
    step (s.withFetchWord 32 w) = passTurn (exec i (s.withFetchWord 32 w))

/-! ## Invariants and whole-machine rules -/

/-- Every step keeps the well-formed states: `pc`s multiples of 4, implemented levels, TLBs that are sets of entries a TLB
can hold, memory in canonical form, every pending invalidation issued by a PE of the machine, of one of the two record
shapes, and applied only within its scope, and every access in flight made by a PE of the machine with entries a TLB can
hold (decisions D3, D14, D26). -/
def Obligations.EveryStepKeepsWellFormed : Prop :=
  ∀ s t : State, s.wf = true → step s = .next t → t.wf = true

/-- Every step keeps this: no TLB to which a pending invalidation has been applied holds an entry it requires to go. It is
true because no step refills a TLB (decision D23; log 28, unsafe), and it speaks of issue and apply as the separate steps
of the decision D15. -/
def Obligations.EveryStepKeepsAppliedClean : Prop :=
  ∀ s t : State, s.appliedClean → step s = .next t → t.appliedClean

/-- The state after reset meets both invariants, and nothing is pending (10_state.md section 10; the register values at
reset are the model's: log 2 to log 6). -/
def Obligations.ResetMeetsTheInvariants : Prop :=
  State.reset.wf = true ∧ State.reset.appliedClean ∧ State.reset.quiescent = true

/-- Over any run of the machine, whatever moves: no general register, level or control field of any PE changes, no TLB
gains an entry, `InFlight` gains no access, and memory and configuration stand (10_state.md R12, R22, R24, R26,
20_memory.md R30, which the spec derives or decides). -/
def Obligations.RunsOnlyShrinkTlbsAndMovePcs : Prop :=
  ∀ s t : State, Reaches s t →
    t.cfg = s.cfg ∧ t.mem = s.mem ∧ t.pes.length = s.pes.length ∧ t.inFlight.Sublist s.inFlight ∧
    ∀ (q : PEId) (pq pq' : PE), s.pes[q]? = some pq → t.pes[q]? = some pq' →
      Claims.SamePEButPcAndTlb pq pq' ∧ pq'.tlb.Sublist pq.tlb
end

