-- ==== Sys2Proof/Laws/PerInstr.lean ====
section
/-! SUPPORT. Statements about every instruction as syntax, made per constructor. -/

namespace Sys2Proof.Laws.RowMatch

/-- The match value of each instruction's row of spec/opcode_table.json, under the mask `0xFFFFFFE0`. -/
def rowMatch : Instr → Word
  | .tlbipVae1 _ _ => 0xD5488720#32
  | .tlbipVae1nxs _ _ => 0xD5489720#32

/-- The encoder's word agrees with the instruction's row of the opcode table under the row's mask, and its low five bits
are the number of `<Xt>`. -/
def Statement (i : Instr) : Prop :=
  encodeWord WordLayout.default i &&& 0xFFFFFFE0#32 = rowMatch i ∧
    (encodeWord WordLayout.default i).extractLsb' 0 5 = i.rt

theorem tlbipVae1 (t t2 : Reg) : Statement (.tlbipVae1 t t2) :=
  (by decide : ∀ t : Reg, encodeWord WordLayout.default (.tlbipVae1 t 0#5) &&& 0xFFFFFFE0#32 = 0xD5488720#32 ∧
    (encodeWord WordLayout.default (.tlbipVae1 t 0#5)).extractLsb' 0 5 = t) t

theorem tlbipVae1nxs (t t2 : Reg) : Statement (.tlbipVae1nxs t t2) :=
  (by decide : ∀ t : Reg, encodeWord WordLayout.default (.tlbipVae1nxs t 0#5) &&& 0xFFFFFFE0#32 = 0xD5489720#32 ∧
    (encodeWord WordLayout.default (.tlbipVae1nxs t 0#5)).extractLsb' 0 5 = t) t

end Sys2Proof.Laws.RowMatch
end

