-- ==== Sys2Proof/Tests/Slice0.lean ====
section
/-! SUPPORT. Tests. Expected results are the spec's: the encodings of 30_encoding.md and the vectors of
95_test_vectors.md; each test names its source. Then one witness per statement that has hypotheses. -/

namespace Sys2Proof.Tests

open Sys2Proof.Machine

/-! ## Well-formedness: an ill-formed term for each check is refused -/

/-- 30_encoding.md R49: odd `t`, a `t2` that does not follow, a `t2` for 31 that is not 31, and `t2 = 31` for `t = 29`. -/
theorem test_ill_formed_terms_are_refused :
    (Instr.tlbipVae1 1#5 2#5).wellFormed PairRule.default = false ∧
    (Instr.tlbipVae1 0#5 2#5).wellFormed PairRule.default = false ∧
    (Instr.tlbipVae1 31#5 0#5).wellFormed PairRule.default = false ∧
    (Instr.tlbipVae1nxs 29#5 31#5).wellFormed PairRule.default = false ∧
    (Instr.tlbipVae1nxs 2#5 2#5).wellFormed PairRule.default = false := by decide

/-- 30_encoding.md R49, at every register number. -/
theorem test_pair_rule :
    (∀ t : Reg, t.toNat % 2 = 0 → pairOf PairRule.default t = some (t + 1#5)) ∧
    (∀ t : Reg, t.toNat % 2 = 1 → t ≠ 31#5 → pairOf PairRule.default t = none) ∧
    pairOf PairRule.default 31#5 = some 31#5 := by decide

/-! ## Decoding: words written out bit by bit -/

/-- 30_encoding.md R46, R48: the fixed bits, L, op0, op1, CRn, CRm, op2, Rt of `TLBIP VAE1, X2, X3`. -/
theorem test_decode_vae1_bits :
    decodeWord WordLayout.default PairRule.default
      (0b1101010101#10 ++ 0b0#1 ++ 0b01#2 ++ 0b000#3 ++ 0b1000#4 ++ 0b0111#4 ++ 0b001#3 ++ 0b00010#5) =
      .ok (.tlbipVae1 2#5 3#5) := rfl

/-- 30_encoding.md R47, R48: the same of `TLBIP VAE1NXS, X28, X29`. -/
theorem test_decode_vae1nxs_bits :
    decodeWord WordLayout.default PairRule.default
      (0b1101010101#10 ++ 0b0#1 ++ 0b01#2 ++ 0b000#3 ++ 0b1001#4 ++ 0b0111#4 ++ 0b001#3 ++ 0b11100#5) =
      .ok (.tlbipVae1nxs 28#5 29#5) := rfl

/-- 95_test_vectors.md section 2.1: bytes in memory, lowest address first. -/
theorem test_decode_bytes :
    decode WordLayout.default PairRule.default [0x3E#8, 0x87#8, 0x48#8, 0xD5#8] = .ok (.tlbipVae1 30#5 31#5, []) ∧
    decode WordLayout.default PairRule.default [0x20#8, 0x97#8, 0x48#8, 0xD5#8] = .ok (.tlbipVae1nxs 0#5 1#5, []) :=
  ⟨rfl, rfl⟩

/-- 95_test_vectors.md section 2.1, refusals, each by its name; and too few bytes. -/
theorem test_refusals_by_name :
    decodeWord WordLayout.default PairRule.default 0xD5488721#32 = .error (.unpairedRegister 0xD5488721#32) ∧
    decodeWord WordLayout.default PairRule.default 0xD5088720#32 = .error (.outsideSpec 0xD5088720#32) ∧
    decodeWord WordLayout.default PairRule.default 0xD5488740#32 = .error (.outsideSpec 0xD5488740#32) ∧
    decodeWord WordLayout.default PairRule.default 0xD548A720#32 = .error (.outsideSpec 0xD548A720#32) ∧
    decode WordLayout.default PairRule.default [0x20#8, 0x87#8, 0x48#8] = .error .tooShort :=
  ⟨rfl, rfl, rfl, rfl, rfl⟩

/-- 95_test_vectors.md section 2.1: the encoder's words. -/
theorem test_encode_words :
    encodeWord WordLayout.default (.tlbipVae1 0#5 1#5) = 0xD5488720#32 ∧
    encodeWord WordLayout.default (.tlbipVae1 31#5 31#5) = 0xD548873F#32 ∧
    encodeWord WordLayout.default (.tlbipVae1nxs 28#5 29#5) = 0xD548973C#32 := by decide

/-! ## The operand: 95_test_vectors.md sections 2.2 and 2.3 -/

def cfgTTL (b : Bool) : Config := { resetConfig with featTTL := b }

/-- Vectors A1, A3, A8: the fields. -/
theorem test_operand_fields :
    (let op := 0x00000007FFF12345#64 ++ 0x0042700000000000#64
     opVA op = 0x007FFF12345#44 ∧ opASID op = 0x0042#16 ∧ opTTL op = 0b0111#4) ∧
    (let op := 0x00000FFFFFFFFFFF#64 ++ 0xFFFFF00000000000#64
     opVA op = 0xFFFFFFFFFFF#44 ∧ opASID op = 0xFFFF#16 ∧ opTTL op = 0b1111#4) ∧
    (let op := 0x0000000000000400#64 ++ 0x0001000000000000#64
     opVA op = 0x00000000400#44 ∧ opASID op = 0x0001#16 ∧ opTTL op = 0b0000#4) := by decide

/-- Vectors A1 to A8: which operands are well formed. -/
theorem test_operand_well_formed :
    operandWellFormed (cfgTTL true) (0x00000007FFF12345#64 ++ 0x0042700000000000#64) = true ∧
    operandWellFormed (cfgTTL false) (0#64 ++ 0#64) = true ∧
    operandWellFormed (cfgTTL true) (0x00000FFFFFFFFFFF#64 ++ 0xFFFFF00000000000#64) = true ∧
    operandWellFormed (cfgTTL true) (0x00000007FFF12345#64 ++ 0x0042700000000001#64) = false ∧
    operandWellFormed (cfgTTL true) (0x00001007FFF12345#64 ++ 0x0042700000000000#64) = false ∧
    operandWellFormed (cfgTTL true) (0x0000000000000400#64 ++ 0x0000200000000000#64) = false ∧
    operandWellFormed (cfgTTL false) (0x00000007FFF12345#64 ++ 0x0042700000000000#64) = false ∧
    operandWellFormed (cfgTTL false) (0x0000000000000400#64 ++ 0x0001000000000000#64) = true := by decide

/-- Section 2.3: all sixteen TTL values, with FEAT_LPA2 and without. -/
theorem test_ttl_table :
    (List.range 16).map (fun n => ttlNames true (BitVec.ofNat 4 n)) =
      [none, none, none, none, some (.kb4, 0), some (.kb4, 1), some (.kb4, 2), some (.kb4, 3),
       none, some (.kb16, 1), some (.kb16, 2), some (.kb16, 3),
       none, some (.kb64, 1), some (.kb64, 2), some (.kb64, 3)] ∧
    (List.range 16).map (fun n => ttlNames false (BitVec.ofNat 4 n)) =
      [none, none, none, none, none, some (.kb4, 1), some (.kb4, 2), some (.kb4, 3),
       none, none, some (.kb16, 2), some (.kb16, 3),
       none, some (.kb64, 1), some (.kb64, 2), some (.kb64, 3)] := by decide

/-! ## The required set: 95_test_vectors.md section 2.5 -/

def page (a : Addr) (size : Nat) : List AddrInterval := [{ lo := a, hi := a + BitVec.ofNat 64 (size - 1) }]

/-- Entry e1. -/
def e1 : TlbEntry :=
  { stage1 := true, combined := false, descBits := .bits128, range := page 0x00007FFF12345000#64 4096, final := true
    global := false, asid := 0x0042#16, regime := .el10, secstate := .ofNS 1#1, vmid := .vmid 7, granule := .kb4
    level := 3 }

def e2 : TlbEntry := { e1 with asid := 0x0043#16 }
def e3 : TlbEntry := { e1 with asid := 0x0043#16, global := true }
def e5 : TlbEntry := { e1 with range := page 0x00007FFF12346000#64 4096 }
def e8 : TlbEntry := { e1 with level := 2, range := page 0x00007FFF12200000#64 0x200000 }
def e9 : TlbEntry := { e8 with final := false }
def e14 : TlbEntry := { e1 with granule := .kb16, range := page 0x00007FFF12344000#64 16384 }

/-- Record r1, with TTL `0b0111`; r0 is r1 with TTL `0b0000`. -/
def r1 : TlbiRecord :=
  { security := .ofNS 1#1, regime := .el10, vmid := .vmid 7, shareability := .nsh, level := .any, attr := .allAttr
    op := 0x00000007FFF12345#64 ++ 0x0042700000000000#64 }

def r0 : TlbiRecord := { r1 with op := 0x00000007FFF12345#64 ++ 0x0042000000000000#64 }

/-- e1 to e15: `Required` under r1 and under r0. -/
theorem test_required_set :
    ([e1, e2, e3, { e1 with descBits := .bits64 }, e5, { e1 with vmid := .vmid 8 }, { e1 with regime := .el20 }, e8, e9,
      { e1 with secstate := .ofNS 0#1 }, { e1 with range := page 0xFF007FFF12345000#64 4096 }, { e1 with combined := true },
      { e1 with final := false, level := 1, asid := 0x0043#16, range := page 0x00007FFF00000000#64 0x40000000 }, e14,
      { e1 with stage1 := false }].map fun e => (required (cfgTTL true) r1 e, required (cfgTTL true) r0 e)) =
      [(true, true), (false, false), (true, true), (false, true), (false, false), (false, false), (false, false),
       (false, true), (false, true), (false, false), (true, true), (false, false), (false, false), (false, true),
       (false, false)] := by decide

/-- The parameters of rows e9 and e12, an ill-formed operand (A4), and a record for the EL2&0 regime without a VMID. -/
theorem test_required_parameters :
    required { cfgTTL true with ttlNonLeafRequired := true } r1 e9 = true ∧
    required { cfgTTL true with combinedS1S2Required := true } r1 { e1 with combined := true } = true ∧
    required (cfgTTL true) { r1 with op := 0x00000007FFF12345#64 ++ 0x0042700000000001#64 } e1 = false ∧
    required { cfgTTL true with res0Policy := .ignore }
      { r1 with op := 0x00000007FFF12345#64 ++ 0x0042700000000001#64 } e1 = true ∧
    required (cfgTTL true) { r1 with regime := .el20, vmid := .vmidNone } { e1 with regime := .el20 } = true ∧
    required (cfgTTL true) { r1 with regime := .el20, vmid := .vmidNone } e1 = false := by decide

/-- Granule low bits: the four rows of the table. -/
theorem test_granule_low_bits :
    intervalMeets 2 0x00000000403#44 { lo := 0x400000#64, hi := 0x403FFF#64 } = true ∧
    intervalMeets 0 0x00000000403#44 { lo := 0x400000#64, hi := 0x400FFF#64 } = false ∧
    intervalMeets 4 0x0000000041F#44 { lo := 0x410000#64, hi := 0x41FFFF#64 } = true ∧
    intervalMeets 4 0x0000000042F#44 { lo := 0x410000#64, hi := 0x41FFFF#64 } = false := by decide

/-- Section 2.6: of `{e1, e2, e3, e5}` only e2 and e5 can be left, whichever entries the free value keeps. -/
theorem test_apply_leaves_a_subset (k : TlbEntry → Bool) :
    ∀ e ∈ invalidateTlb (cfgTTL true) r1 k [e1, e2, e3, e5], e = e2 ∨ e = e5 := by
  intro e he
  obtain ⟨hm, hr, -⟩ := mem_invalidateTlb.1 he
  simp only [List.mem_cons, List.not_mem_nil, or_false] at hm
  rcases hm with rfl | rfl | rfl | rfl
  · exact absurd hr (by decide)
  · exact .inl rfl
  · exact absurd hr (by decide)
  · exact .inr rfl

/-! ## Small states -/

/-- A PE at `el`, `pc` at `0x1000`, everything else zero, VMID 7, `SCR_EL3.NS` one. -/
def peAt (el : EL) : PE :=
  { x := Vector.replicate 31 0#64, pc := 0x1000#64, el := el, hcrEl2 := { ttlb := 0#1, fb := 0#1, e2h := 0#1, tge := 0#1 }
    scrEl3 := { ns := 1#1, nse := 0#1, fgten := 0#1 }, hfgitrEl2 := { tlbivae1 := 0#1 }
    hcrxEl2 := { fnxs := 0#1, fgtnxs := 0#1 }, vmidReads := .vmid 7, el2EnabledReads := false
    hcrxEl2EnabledReads := false, tlb := [] }

/-- Two PEs, PE 0 being `pe` and about to execute. -/
def stateOf (pe : PE) : State :=
  { cfg := resetConfig, pes := [pe, peAt .el1], mem := [], pending := [], inFlight := [], turn := .execute 0, tick := 0 }

/-- The record an instruction issued, if it did. -/
def issuedRecord : Result → Option TlbiRecord
  | .next t => (t.pending.getLast?).map Invalidation.record
  | _ => none

/-- What is checked of an outcome: the fault, or the regime, VMID, shareability and attribute issued. -/
def summary : Result → Option Fault × Option (Regime × VMIDValue × Shareability × TlbiAttr)
  | .fault f => (some f, none)
  | r => (none, (issuedRecord r).map fun i => (i.regime, i.vmid, i.shareability, i.attr))

def undef : Option Fault × Option (Regime × VMIDValue × Shareability × TlbiAttr) := (some .undefined, none)

def trap : Option Fault × Option (Regime × VMIDValue × Shareability × TlbiAttr) :=
  (some (.systemAccessTrap .el2 0x14), none)

def issue10 (sh : Shareability) (a : TlbiAttr) : Option Fault × Option (Regime × VMIDValue × Shareability × TlbiAttr) :=
  (none, some (.el10, .vmid 7, sh, a))

def issue20 (a : TlbiAttr) : Option Fault × Option (Regime × VMIDValue × Shareability × TlbiAttr) :=
  (none, some (.el20, .vmidNone, .nsh, a))

/-- A PE with the fields the access checks read. -/
def peWith (el : EL) (e2en hx : Bool) (ttlb fb fgten tlbivae1 fnxs fgtnxs e2h tge : BitVec 1) : PE :=
  { peAt el with
    hcrEl2 := { ttlb := ttlb, fb := fb, e2h := e2h, tge := tge }, scrEl3 := { ns := 1#1, nse := 0#1, fgten := fgten }
    hfgitrEl2 := { tlbivae1 := tlbivae1 }, hcrxEl2 := { fnxs := fnxs, fgtnxs := fgtnxs }, el2EnabledReads := e2en
    hcrxEl2EnabledReads := hx }

/-- The test configuration, by the features the vectors name. -/
def cfgF (d128 xs fgt hcx el3 : Bool) : Config :=
  { resetConfig with featD128 := d128, featXS := xs, featFGT := fgt, featHCX := hcx, haveEL3 := el3 }

def run1 (c : Config) (pe : PE) : Option Fault × Option (Regime × VMIDValue × Shareability × TlbiAttr) :=
  summary (exec (.tlbipVae1 0#5 1#5) { stateOf pe with cfg := c })

def run2 (c : Config) (pe : PE) : Option Fault × Option (Regime × VMIDValue × Shareability × TlbiAttr) :=
  summary (exec (.tlbipVae1nxs 0#5 1#5) { stateOf pe with cfg := c })

/-! ## The instructions: 95_test_vectors.md section 2.4 and the worked examples -/

/-- Vectors X1 to X15. -/
theorem test_vae1_access_checks :
    [run1 (cfgF false true true true true) (peWith .el1 true true 1 0 1 1 0 0 0 0),
     run1 (cfgF true true true true true) (peWith .el0 true true 1 1 1 1 1 1 1 1),
     run1 (cfgF true true true true true) (peWith .el1 true false 1 0 0 0 0 0 0 0),
     run1 (cfgF true true true true true) (peWith .el1 true false 0 0 1 1 0 0 0 0),
     run1 (cfgF true true true true true) (peWith .el1 true false 0 0 0 1 0 0 0 0),
     run1 (cfgF true true true true false) (peWith .el1 true false 0 0 0 1 0 0 0 0),
     run1 (cfgF true true false true true) (peWith .el1 true false 0 1 1 1 0 0 0 0),
     run1 (cfgF true true true true true) (peWith .el1 true true 0 1 0 0 1 0 0 0),
     run1 (cfgF true true true true true) (peWith .el1 true false 0 0 0 0 1 0 0 0),
     run1 (cfgF true true true false true) (peWith .el1 false true 1 1 1 1 1 0 0 0),
     run1 (cfgF true true true true true) (peWith .el1 false true 1 1 1 1 1 0 0 0),
     run1 (cfgF true true true true true) (peWith .el2 true true 1 1 1 1 1 0 1 1),
     run1 (cfgF true true true true true) (peWith .el2 true true 1 1 1 1 1 0 1 0),
     run1 (cfgF true true true true true) (peWith .el3 false true 1 1 1 1 1 0 1 1),
     run1 (cfgF true true true true true) (peWith .el3 false true 1 1 1 1 1 0 0 1)] =
    [undef, undef, trap, trap, issue10 .nsh .allAttr, trap, issue10 .ish .allAttr, issue10 .ish .excludeXS,
     issue10 .nsh .allAttr, issue10 .nsh .allAttr, issue10 .nsh .excludeXS, issue20 .allAttr, issue10 .nsh .allAttr,
     issue20 .allAttr, issue10 .nsh .allAttr] := by decide

/-- Vectors Y1 to Y11. -/
theorem test_vae1nxs_access_checks :
    [run2 (cfgF true false true true true) (peWith .el1 true true 1 0 1 1 0 0 0 0),
     run2 (cfgF false true true true true) (peWith .el2 true true 0 0 0 0 0 0 0 0),
     run2 (cfgF true true true true true) (peWith .el0 true true 0 0 0 0 0 0 1 1),
     run2 (cfgF true true true true true) (peWith .el1 true true 1 0 0 0 0 1 0 0),
     run2 (cfgF true true true true false) (peWith .el1 true true 0 0 0 1 0 0 0 0),
     run2 (cfgF true true true true false) (peWith .el1 true true 0 0 0 1 0 1 0 0),
     run2 (cfgF true true true true false) (peWith .el1 true false 0 0 0 1 0 1 0 0),
     run2 (cfgF true true true false false) (peWith .el1 true false 0 1 0 1 0 0 0 0),
     run2 (cfgF true true true true true) (peWith .el1 true true 0 0 0 1 0 0 0 0),
     run2 (cfgF true true true true true) (peWith .el2 true true 0 0 0 0 0 0 1 1),
     run2 (cfgF true true true true true) (peWith .el3 true true 0 0 0 0 0 0 0 0)] =
    [undef, undef, undef, trap, trap, issue10 .nsh .excludeXS, trap, issue10 .ish .excludeXS, issue10 .nsh .excludeXS,
     issue20 .excludeXS, issue10 .nsh .excludeXS] := by decide

/-- The worked example of 41_tlbip_vae1.md: the operand issued, and `pc + 4`. -/
theorem test_vae1_worked_example :
    (match exec (.tlbipVae1 0#5 1#5) (stateOf
        (((peAt .el1).writeX 0#5 0x0042700000000000#64).writeX 1#5 0x00000007FFF12345#64)) with
      | .next t => t.pending.map (fun v => (v.issuer, v.record.op, v.applied)) ==
          [(0, 0x00000007FFF123450042700000000000#128, [])] && t.pes.map PE.pc == [0x1004#64, 0x1000#64]
      | _ => false) = true := by decide

/-- The worked example of 42_tlbip_vae1nxs.md: `{S, EL20, VMID_NONE, NSH, Any, ExcludeXS, op}`. -/
theorem test_vae1nxs_worked_example :
    issuedRecord (exec (.tlbipVae1nxs 2#5 3#5) (stateOf
        (((peWith .el2 true true 0 0 0 0 0 0 1 1).writeX 2#5 0x0001000000000000#64).writeX 3#5 0x0000000000000400#64))) =
      some { security := .ofNS 1#1, regime := .el20, vmid := .vmidNone, shareability := .nsh, level := .any
             attr := .excludeXS, op := 0x00000000000004000001000000000000#128 } := by decide

/-! ## The agent and the step -/

/-- P4: a broadcast is pending from PE 0, with an invalidation of e1 already applied to both PEs. -/
def ishPending (applied : List PEId) (a : TlbiAttr) (fl : List Access) (turn : Turn) : State :=
  { stateOf { peAt .el1 with tlb := [e2] } with
    pending := [{ issuer := 0, record := { r1 with shareability := .ish, attr := a }, applied := applied }]
    inFlight := fl, turn := turn }

def a1 : Access := { pe := 0, used := [e1], xs := 0#1 }
def a2 : Access := { pe := 0, used := [e1], xs := 1#1 }
def a3 : Access := { pe := 0, used := [e5], xs := 0#1 }

/-- What is left of `Pending` after a step. -/
def pendingAfter (s : State) : Option Nat :=
  match step s with
  | .next t => some t.pending.length
  | _ => none

/-- Section 2.6's completion table, and P4: completion only after both PEs. -/
theorem test_completion_conditions :
    pendingAfter (ishPending [0, 1] .allAttr [a3] (.complete 0)) = some 0 ∧
    pendingAfter (ishPending [0, 1] .allAttr [a1, a3] (.complete 0)) = some 1 ∧
    pendingAfter (ishPending [0, 1] .allAttr [a2, a3] (.complete 0)) = some 1 ∧
    pendingAfter (ishPending [0, 1] .excludeXS [a2, a3] (.complete 0)) = some 0 ∧
    pendingAfter (ishPending [0, 1] .excludeXS [a1, a3] (.complete 0)) = some 1 ∧
    pendingAfter (ishPending [0] .allAttr [] (.complete 0)) = some 1 := by decide

/-- The word placed at `pc` after reset is the instruction the step runs, and issues (the reset PE is at EL3: log 5). -/
theorem test_first_instruction_after_reset :
    pendingAfter (State.reset.withFetchWord 32 0xD5488720) = some 1 ∧
    pendingAfter (State.reset.withFetchWord 32 0xD5489720) = some 1 := by decide

/-- With TLBIAtomic the issue itself empties PE 0's TLB of e1 and lists the scope as applied (R86). -/
theorem test_atomic_issue :
    (match exec (.tlbipVae1 0#5 1#5) { stateOf ((({ peAt .el1 with tlb := [e1] }).writeX 0#5 0x0042700000000000#64).writeX
        1#5 0x00000007FFF12345#64) with cfg := { cfgTTL true with tlbiAtomic := true } } with
      | .next t => t.pending.map Invalidation.applied == [[0]] && t.pes.map PE.tlb == [[], []]
      | _ => false) = true := by decide

/-! ## Witnesses: a concrete state and operands that meet the hypotheses of each statement, clause by clause -/

/-- A state in which PE 0 is at `el` with EL2 disabled, and one at EL1 with the fine-grained trap on. -/
def sEL (el : EL) : State := stateOf (peAt el)

def sTrap : State := { stateOf (peWith .el1 true true 0 0 1 1 0 1 0 0) with cfg := cfgF true true true true true }

theorem witness_DecodeOfEncodeIsTheInstruction :
    (Instr.tlbipVae1 0#5 1#5).wellFormed PairRule.default = true ∧
    (Instr.tlbipVae1 30#5 31#5).wellFormed PairRule.default = true ∧
    (Instr.tlbipVae1nxs 31#5 31#5).wellFormed PairRule.default = true := by decide

theorem witness_DecodedWordEncodesBack :
    decode WordLayout.default PairRule.default [0x20#8, 0x87#8, 0x48#8, 0xD5#8, 0x07#8] =
      .ok (.tlbipVae1 0#5 1#5, [0x07#8]) := rfl

theorem witness_RegisterThirtyOnePairGivesZeroOperand :
    ∃ u, exec (.tlbipVae1 31#5 31#5) (sEL .el2) = .next u := ⟨_, rfl⟩

theorem witness_OtherRegistersDoNotMatter :
    Claims.Executes (sEL .el2) 0 (peAt .el2) ∧ (30#5 ≠ 0#5 ∧ 30#5 ≠ 1#5) ∧
    (∃ u, exec (.tlbipVae1 0#5 1#5) (sEL .el2) = .next u) ∧
    ∃ u, exec (.tlbipVae1nxs 31#5 31#5) (sEL .el2) = .next u :=
  ⟨⟨rfl, rfl⟩, by decide, ⟨_, rfl⟩, ⟨_, rfl⟩⟩

theorem witness_GranuleIgnoresLowVABits :
    (e14.granule = .kb16 ∧ ∀ j, 66 ≤ j → (3#128 <<< 64).getLsbD j = (0#128).getLsbD j) ∧
    ({ e14 with granule := .kb64 }.granule = .kb64 ∧ ∀ j, 68 ≤ j → (15#128 <<< 64).getLsbD j = (0#128).getLsbD j) ∧
    (∀ j < 64, (3#128 <<< 64).getLsbD j = (0#128).getLsbD j) ∧
    ∀ j < 64, (15#128 <<< 64).getLsbD j = (0#128).getLsbD j := by
  refine ⟨⟨rfl, fun j hj => ?_⟩, ⟨rfl, fun j hj => ?_⟩, by decide, by decide⟩
  · by_cases h : j < 128
    · interval_cases j <;> rfl
    · rw [BitVec.getLsbD_of_ge _ _ (by omega), BitVec.getLsbD_of_ge _ _ (by omega)]
  · by_cases h : j < 128
    · interval_cases j <;> rfl
    · rw [BitVec.getLsbD_of_ge _ _ (by omega), BitVec.getLsbD_of_ge _ _ (by omega)]

theorem witness_IgnorePolicyDisregardsReservedBits :
    let c := { cfgTTL true with res0Policy := .ignore }
    c.res0Policy = .ignore ∧
    (let op := 0x00000007FFF12345#64 ++ 0x0042700000000000#64
     let op' := 0x00001007FFF12345#64 ++ 0x0042700000000001#64
     opVA op' = opVA op ∧ opASID op' = opASID op ∧ opTTL op' = opTTL op ∧ op' ≠ op) ∧
    (let op := 0x0000000000000400#64 ++ 0x0000200000000000#64
     let op' := 0x0000000000000400#64 ++ 0x0000000000000000#64
     opVA op' = opVA op ∧ opASID op' = opASID op ∧ ttlHigh (opTTL op') = 0#2 ∧ ttlHigh (opTTL op) = 0#2 ∧
       op' ≠ op) := by decide

theorem witness_UpperAsidByteMatchesNoNonGlobalEntry :
    let c := { cfgTTL true with asidBits := .bits8 }
    c.asidBits = .bits8 ∧ entryWf c e1 = true ∧ ¬ (e1.final = true ∧ e1.global = true) ∧
    (opASID (0x00000007FFF12345#64 ++ 0x0142700000000000#64)).extractLsb' 8 8 ≠ 0#8 := by decide

theorem witness_ExceptionsAreExactlyTheTable :
    Claims.Executes sTrap 0 (peWith .el1 true true 0 0 1 1 0 1 0 0) ∧
    exec (.tlbipVae1 0#5 1#5) sTrap = .fault (.systemAccessTrap .el2 0x14) ∧
    exec (.tlbipVae1 0#5 1#5) (sEL .el0) = .fault .undefined ∧
    exec (.tlbipVae1nxs 0#5 1#5) { sTrap with cfg := cfgF true false true true true } = .fault .undefined ∧
    ∃ t, exec (.tlbipVae1nxs 0#5 1#5) sTrap = .next t :=
  ⟨⟨rfl, rfl⟩, rfl, rfl, rfl, _, rfl⟩

theorem witness_FeatureAbsenceComesBeforeTheTraps :
    let pe := peWith .el1 true true 1 0 1 1 0 1 0 0
    let s : State := { stateOf pe with cfg := cfgF true false true true true }
    Claims.Executes s 0 pe ∧ ¬ Claims.Present s.cfg (.tlbipVae1nxs 0#5 1#5) ∧
    Claims.TrapsFromEl1 s.cfg pe (.tlbipVae1nxs 0#5 1#5) ∧
    ¬ Claims.Present (cfgF false true true true true) (.tlbipVae1 0#5 1#5) := by
  refine ⟨⟨rfl, rfl⟩, ?_, ⟨rfl, .inl rfl⟩, ?_⟩ <;> simp only [Claims.Present] <;> decide

theorem witness_Vae1IssuesAtEl1 :
    Claims.Executes (sEL .el1) 0 (peAt .el1) ∧ (sEL .el1).cfg.featD128 = true ∧ (peAt .el1).el = .el1 ∧
    ¬ Claims.TrapsFromEl1 (sEL .el1).cfg (peAt .el1) (.tlbipVae1 0#5 1#5) :=
  ⟨⟨rfl, rfl⟩, rfl, rfl, fun h => absurd h.1 (by decide)⟩

theorem witness_NxsIssuesAtEl1 :
    Claims.Executes sTrap 0 (peWith .el1 true true 0 0 1 1 0 1 0 0) ∧ sTrap.cfg.featD128 = true ∧
    sTrap.cfg.featXS = true ∧ (peWith .el1 true true 0 0 1 1 0 1 0 0).el = .el1 ∧
    ¬ Claims.TrapsFromEl1 sTrap.cfg (peWith .el1 true true 0 0 1 1 0 1 0 0) (.tlbipVae1nxs 30#5 31#5) :=
  ⟨⟨rfl, rfl⟩, rfl, rfl, rfl, by simp only [Claims.TrapsFromEl1]; decide⟩

theorem witness_Vae1IssuesAboveEl1 :
    Claims.Executes (sEL .el3) 0 (peAt .el3) ∧ (sEL .el3).cfg.featD128 = true ∧ (peAt .el3).el = .el3 ∧
    ¬ Claims.HostRegime (sEL .el3).cfg (peAt .el3) ∧
    Claims.Executes (stateOf (peWith .el2 true true 1 1 1 1 1 1 1 1)) 0 (peWith .el2 true true 1 1 1 1 1 1 1 1) ∧
    Claims.HostRegime resetConfig (peWith .el2 true true 1 1 1 1 1 1 1 1) :=
  ⟨⟨rfl, rfl⟩, rfl, rfl, by simp only [Claims.HostRegime]; decide, ⟨rfl, rfl⟩, rfl, rfl, rfl⟩

theorem witness_NxsIssuesAboveEl1 :
    Claims.Executes (sEL .el2) 0 (peAt .el2) ∧ (sEL .el2).cfg.featD128 = true ∧ (sEL .el2).cfg.featXS = true ∧
    (peAt .el2).el = .el2 ∧ ¬ Claims.HostRegime (sEL .el2).cfg (peAt .el2) ∧
    Claims.Executes (stateOf (peWith .el3 true true 1 1 1 1 1 1 1 1)) 0 (peWith .el3 true true 1 1 1 1 1 1 1 1) ∧
    Claims.HostRegime resetConfig (peWith .el3 true true 1 1 1 1 1 1 1 1) :=
  ⟨⟨rfl, rfl⟩, rfl, rfl, rfl, by simp only [Claims.HostRegime]; decide, ⟨rfl, rfl⟩, rfl, rfl, rfl⟩

theorem witness_FineGrainedTrapCanSpareTheNxsForm :
    let pe := peWith .el1 true true 0 0 1 1 0 1 0 0
    Claims.Executes sTrap 0 pe ∧ sTrap.cfg.featD128 = true ∧ sTrap.cfg.featXS = true ∧ sTrap.cfg.featFGT = true ∧
    pe.el = .el1 ∧ el2Enabled sTrap.cfg pe = true ∧ pe.hcrEl2.ttlb = 0#1 ∧
    (sTrap.cfg.haveEL3 = true → pe.scrEl3.fgten = 1#1) ∧ pe.hfgitrEl2.tlbivae1 = 1#1 ∧
    (pe.hcrxEl2EnabledReads = true ∧ pe.hcrxEl2.fgtnxs = 1#1) ∧ (cfgF true true true false true).featHCX = false :=
  ⟨⟨rfl, rfl⟩, rfl, rfl, rfl, rfl, rfl, rfl, fun _ => rfl, rfl, ⟨rfl, rfl⟩, rfl⟩

theorem witness_InstructionsLeaveAllElseAlone :
    Claims.Executes (sEL .el2) 0 (peAt .el2) ∧ (∃ u, exec (.tlbipVae1 0#5 1#5) (sEL .el2) = .next u) ∧
    ∃ u, exec (.tlbipVae1nxs 0#5 1#5) { sEL .el2 with cfg := { resetConfig with tlbiAtomic := true } } = .next u :=
  ⟨⟨rfl, rfl⟩, ⟨_, rfl⟩, ⟨_, rfl⟩⟩

theorem witness_VariantsLeaveTheSamePEs :
    let s : State := { sEL .el1 with cfg := { resetConfig with tlbiAtomic := true } }
    (∃ u, exec (.tlbipVae1 0#5 1#5) s = .next u) ∧ ∃ u, exec (.tlbipVae1nxs 0#5 1#5) s = .next u :=
  ⟨⟨_, rfl⟩, ⟨_, rfl⟩⟩

theorem witness_VariantsPerformTheSameInvalidation :
    (∃ u, exec (.tlbipVae1 0#5 1#5) (sEL .el1) = .next u) ∧ ∃ u, exec (.tlbipVae1nxs 0#5 1#5) (sEL .el1) = .next u :=
  ⟨⟨_, rfl⟩, ⟨_, rfl⟩⟩

theorem witness_TrapControlsDoNotMatterAboveEl1 :
    Claims.Executes (sEL .el2) 0 (peAt .el2) ∧ (peAt .el2).el = .el2 ∧
    (∃ u, exec (.tlbipVae1 0#5 1#5) (sEL .el2) = .next u) ∧
    Claims.Executes (sEL .el3) 0 (peAt .el3) ∧ (peAt .el3).el = .el3 ∧
    ∃ u, exec (.tlbipVae1nxs 0#5 1#5) (sEL .el3) = .next u :=
  ⟨⟨rfl, rfl⟩, rfl, ⟨_, rfl⟩, ⟨rfl, rfl⟩, rfl, ⟨_, rfl⟩⟩

theorem witness_El2ControlsDoNotMatterWhenDisabled :
    Claims.Executes (sEL .el1) 0 (peAt .el1) ∧ (peAt .el1).el = .el1 ∧ el2Enabled (sEL .el1).cfg (peAt .el1) = false ∧
    Claims.Present (sEL .el1).cfg (.tlbipVae1 0#5 1#5) ∧ Claims.Present (sEL .el1).cfg (.tlbipVae1nxs 0#5 1#5) :=
  ⟨⟨rfl, rfl⟩, rfl, rfl, rfl, rfl, rfl⟩

theorem witness_MemoryIsNotRead :
    (∃ u, exec (.tlbipVae1 0#5 1#5) (sEL .el1) = .next u) ∧
    exec (.tlbipVae1 0#5 1#5) (sEL .el0) = .fault .undefined := ⟨⟨_, rfl⟩, rfl⟩

theorem witness_ApplyStepRemovesTheRequired :
    let s := ishPending [1] .allAttr [] (.apply 0 0)
    let v : Invalidation := { issuer := 0, record := { r1 with shareability := .ish }, applied := [1] }
    s.turn = .apply 0 0 ∧ s.pending[0]? = some v ∧ 0 ∈ scope s v.issuer v.record.shareability ∧ 0 ∉ v.applied ∧
    s.pes[0]? = some { peAt .el1 with tlb := [e2] } := by decide

theorem witness_NonShareableReachesTheIssuerOnly :
    let s := { sEL .el1 with pending := [{ issuer := 0, record := r1, applied := [] }], turn := .apply 0 0 }
    s.turn = .apply 0 0 ∧ s.pending[0]? = some { issuer := 0, record := r1, applied := [] } ∧
    r1.shareability = .nsh ∧ (∃ t, step s = .next t) ∧ 1 ≠ 0 :=
  ⟨rfl, rfl, rfl, ⟨_, rfl⟩, by decide⟩

theorem witness_CompletionWaitsForEveryAccess :
    let s := ishPending [0, 1] .allAttr [a3] (.complete 0)
    s.turn = .complete 0 ∧
    s.pending[0]? = some { issuer := 0, record := { r1 with shareability := .ish, attr := .allAttr }, applied := [0, 1] } ∧
    ∃ t, step s = .next t ∧ t.pending ≠ s.pending := by
  refine ⟨rfl, rfl, _, rfl, ?_⟩
  decide

theorem witness_NxsCompletionWaitsForXSZeroOnly :
    let s := ishPending [0, 1] .excludeXS [a2] (.complete 0)
    s.turn = .complete 0 ∧
    s.pending[0]? =
      some { issuer := 0, record := { r1 with shareability := .ish, attr := .excludeXS }, applied := [0, 1] } ∧
    (∃ t, step s = .next t ∧ t.pending ≠ s.pending) ∧ a2.xs = 1#1 ∧
    (∃ t', step (s.setInFlight (a2 :: s.inFlight)) = .next t') ∧
    Claims.Executes (sEL .el2) 0 (peAt .el2) ∧ ∃ u, exec (.tlbipVae1nxs 0#5 1#5) (sEL .el2) = .next u := by
  refine ⟨rfl, rfl, ⟨_, rfl, ?_⟩, rfl, ⟨_, rfl⟩, ⟨rfl, rfl⟩, _, rfl⟩
  decide

theorem witness_CompletionHappensWhenAllowed :
    let s := ishPending [0, 1] .excludeXS [a2, a3] (.complete 0)
    let v : Invalidation := { issuer := 0, record := { r1 with shareability := .ish, attr := .excludeXS }, applied := [0, 1] }
    s.turn = .complete 0 ∧ s.pending[0]? = some v ∧ scope s v.issuer v.record.shareability = v.applied ∧
    ∀ a ∈ s.inFlight, a.pe ∈ scope s v.issuer v.record.shareability →
      (v.record.attr = .excludeXS → a.xs = 0#1) → ∀ e ∈ a.used, required s.cfg v.record e = false := by decide

/-- P4's pending broadcast with 8 bits of ASID and an operand whose upper ASID byte is 1. -/
def asidPending (fl : List Access) : State :=
  { ishPending [0, 1] .allAttr fl (.complete 0) with
    cfg := { cfgTTL true with asidBits := .bits8 }
    pending := [{ issuer := 0, applied := [0, 1]
                  record := { r1 with shareability := .ish, op := 0x00000007FFF12345#64 ++ 0x0142700000000000#64 } }] }

theorem witness_UpperAsidByteIsNotHeldUpByNonGlobalEntries :
    let s := asidPending [a1]
    let r : TlbiRecord :=
      { r1 with shareability := .ish, op := 0x00000007FFF12345#64 ++ 0x0142700000000000#64 }
    s.wf = true ∧ s.cfg.asidBits = .bits8 ∧ (opASID r.op).extractLsb' 8 8 ≠ 0#8 ∧ s.turn = .complete 0 ∧
    s.pending[0]? = some { issuer := 0, record := r, applied := [0, 1] } ∧ scope s 0 .ish = [0, 1] ∧
    ∀ a ∈ s.inFlight, ∀ e ∈ a.used, ¬ (e.final = true ∧ e.global = true) := by decide

/-- 40_tlbip_operation.md R65: an access in flight with a non-zero upper ASID byte is none a machine with 8 bits of ASID has. -/
theorem test_upper_asid_byte_in_flight_is_ill_formed :
    (asidPending [{ a1 with used := [{ e1 with asid := 0x0142#16 }] }]).wf = false ∧
    (asidPending [{ a1 with pe := 2 }]).wf = false := by decide

/-- 40_tlbip_operation.md R78: the executing PE belongs to its domain without being listed, an absent PE does not though it
is listed, and `NSH` is the executing PE alone. -/
theorem test_scope :
    let s : State := { sEL .el1 with cfg := { resetConfig with innerShareable := [[1, 7], []] } }
    scope s 0 .ish = [0, 1] ∧ scope s 1 .ish = [1] ∧ scope s 0 .nsh = [0] := by decide

theorem witness_NothingRequiredIsLeftAfterCompletion :
    let s := ishPending [0, 1] .allAttr [a3] (.complete 0)
    s.appliedClean ∧ s.turn = .complete 0 ∧ ∃ t, step s = .next t ∧ t.pending ≠ s.pending := by
  refine ⟨?_, rfl, _, rfl, ?_⟩
  · intro v hv q _ pe hpe e he
    have hv' : v = { issuer := 0, record := { r1 with shareability := .ish, attr := .allAttr }, applied := [0, 1] } := by simpa [ishPending] using hv
    have hm : pe ∈ [{ peAt .el1 with tlb := [e2] }, peAt .el1] := List.mem_of_getElem? hpe
    simp only [List.mem_cons, List.not_mem_nil, or_false] at hm
    rcases hm with rfl | rfl
    · obtain rfl : e = e2 := by simpa using he
      subst hv'
      decide
    · cases he
  · decide

theorem witness_PlainCompletionImpliesNxsCompletion :
    canComplete (ishPending [0, 1] .allAttr [a3] (.complete 0))
      { issuer := 0, record := { r1 with shareability := .ish }, applied := [0, 1] } = true ∧ r1.attr = .allAttr := by
  decide

theorem witness_CompletedAccessLeavesInFlight :
    let s := ishPending [] .allAttr [a1, a2, a3] (.accessDone 1)
    s.turn = .accessDone 1 ∧ s.inFlight = [a1] ++ a2 :: [a3] ∧ [a1].length = 1 := by decide

theorem witness_TurnsNotEnabledChangeNothing :
    ({ sEL .el1 with turn := .execute 2 }.turn = .execute 2 ∧ (sEL .el1).pes.length ≤ 2) ∧
    (0 ∈ [0] ∧ (ishPending [0] .allAttr [] (.apply 0 0)).pending[0]? =
      some { issuer := 0, record := { r1 with shareability := .ish }, applied := [0] }) ∧
    2 ∉ scope (ishPending [0] .allAttr [] (.apply 0 2)) 0 .ish ∧
    (1 ∈ scope (ishPending [0] .allAttr [] (.complete 0)) 0 .ish ∧ 1 ∉ [0]) ∧
    (a1.pe ∈ scope (ishPending [0, 1] .allAttr [a1] (.complete 0)) 0 .ish ∧
      required resetConfig { r1 with shareability := .ish } e1 = true) ∧
    (ishPending [0] .allAttr [a1] (.accessDone 1)).inFlight.length ≤ 1 := by decide

/-- A state with `TLBIP VAE1, X0, X1` at PE 0's `pc`, or with other bytes there. -/
def sProg (pc : Addr) (bs : List Byte) : State :=
  { stateOf ((peAt .el1).setPc pc) with mem := Memory.writeBytes [] pc bs }

theorem witness_StepRunsTheDecodedInstruction :
    let s := sProg 0x1000#64 [0x20#8, 0x87#8, 0x48#8, 0xD5#8]
    let pe := (peAt .el1).setPc 0x1000#64
    Claims.Executes s 0 pe ∧ pe.pc.toNat % 4 = 0 ∧ s.mem.read pe.pc = some 0x20#8 ∧
    s.mem.read (pe.pc + 1#64) = some 0x87#8 ∧ s.mem.read (pe.pc + 2#64) = some 0x48#8 ∧
    s.mem.read (pe.pc + 3#64) = some 0xD5#8 ∧
    decodeWord s.cfg.wordLayout s.cfg.pairRule (0xD5#8 ++ 0x48#8 ++ 0x87#8 ++ 0x20#8) = .ok (.tlbipVae1 0#5 1#5) :=
  ⟨⟨rfl, rfl⟩, by decide, by decide, by decide, by decide, by decide, rfl⟩

theorem witness_StepStopsWhereNoInstructionIs :
    (Claims.Executes (sProg 0x1002#64 []) 0 ((peAt .el1).setPc 0x1002#64) ∧ (0x1002#64).toNat % 4 ≠ 0) ∧
    (Claims.Executes (sProg 0x1000#64 [0x20#8, 0x87#8, 0x48#8]) 0 ((peAt .el1).setPc 0x1000#64) ∧
      (0x1000#64).toNat % 4 = 0 ∧
      (sProg 0x1000#64 [0x20#8, 0x87#8, 0x48#8]).mem.read (0x1000#64 + BitVec.ofNat 64 3) = none) ∧
    (sProg 0x1000#64 [0x40#8, 0x87#8, 0x48#8, 0xD5#8]).mem.read 0x1000#64 = some 0x40#8 ∧
    decodeWord WordLayout.default PairRule.default (0xD5#8 ++ 0x48#8 ++ 0x87#8 ++ 0x40#8) =
      .error (.outsideSpec 0xD5488740#32) ∧
    decodeWord WordLayout.default PairRule.default (0xD5#8 ++ 0x48#8 ++ 0x87#8 ++ 0x21#8) =
      .error (.unpairedRegister 0xD5488721#32) :=
  ⟨⟨⟨rfl, rfl⟩, by decide⟩, ⟨⟨rfl, rfl⟩, by decide, by decide⟩, by decide, rfl, rfl⟩

theorem witness_PlacedWordRunsNext :
    0 < State.reset.pes.length ∧ State.reset.cfg.wordLayout = WordLayout.default ∧
    State.reset.cfg.pairRule = PairRule.default ∧ decodeTableWord 32 0xD5489720 = some (.tlbipVae1nxs 0#5 1#5) := by
  decide

theorem witness_EveryStepKeepsWellFormed :
    (ishPending [0, 1] .allAttr [a3] (.complete 0)).wf = true ∧
    (∃ t, step (ishPending [0, 1] .allAttr [a3] (.complete 0)) = .next t) ∧
    (sProg 0x1000#64 [0x20#8, 0x87#8, 0x48#8, 0xD5#8]).wf = true ∧
    ∃ t, step (sProg 0x1000#64 [0x20#8, 0x87#8, 0x48#8, 0xD5#8]) = .next t :=
  ⟨by decide, ⟨_, rfl⟩, by decide, ⟨_, rfl⟩⟩

theorem witness_EveryStepKeepsAppliedClean :
    (sProg 0x1000#64 [0x20#8, 0x97#8, 0x48#8, 0xD5#8]).appliedClean ∧
    ∃ t, step (sProg 0x1000#64 [0x20#8, 0x97#8, 0x48#8, 0xD5#8]) = .next t := by
  refine ⟨fun v hv => ?_, _, rfl⟩
  cases hv

theorem witness_RunsOnlyShrinkTlbsAndMovePcs :
    ∃ t, Reaches (sProg 0x1000#64 [0x20#8, 0x87#8, 0x48#8, 0xD5#8]) t ∧ t.pes.map PE.pc = [0x1004#64, 0x1000#64] :=
  ⟨_, .snoc (.refl _) rfl, by decide⟩

end Sys2Proof.Tests
end

/-! ## Proofs: what the word decoder accepts

One inversion lemma, `decodeWord_eq_ok_iff`, says for every layout and pair rule which words decode to an instruction. -/

namespace Sys2Proof

/-- The five fields are all there is to the encoding fields of a word (30_encoding.md R45). -/
theorem sysFields_eq_iff (f g : SysFields) :
    f = g ↔ f.op0 = g.op0 ∧ f.op1 = g.op1 ∧ f.crn = g.crn ∧ f.crm = g.crm ∧ f.op2 = g.op2 := by
  cases f
  cases g
  simp only [SysFields.mk.injEq]

theorem fieldsOf_vae1_ne_vae1nxs : fieldsOf .vae1 ≠ fieldsOf .vae1nxs := by decide

/-- `variantOf` inverts `fieldsOf`: the field values of R46 and R47 differ, so the order of its two tests does not
matter. -/
theorem variantOf_eq_some_iff (f : SysFields) (v : Variant) : variantOf f = some v ↔ f = fieldsOf v := by
  unfold variantOf
  split
  · next h =>
    subst h
    cases v <;> simp [fieldsOf_vae1_ne_vae1nxs]
  · next h1 =>
    split
    · next h2 =>
      subst h2
      cases v <;> simp [fieldsOf_vae1_ne_vae1nxs.symm]
    · next h2 => cases v <;> simp [h1, h2]

theorem mkInstr_eq_iff (v : Variant) (t t2 : Reg) (i : Instr) :
    mkInstr v t t2 = i ↔ v = i.variant ∧ t = i.rt ∧ t2 = i.rt2 := by
  cases v <;> cases i <;> simp [mkInstr, Instr.variant, Instr.rt, Instr.rt2]

/-- What a word that decodes is, and that every such word decodes (30_encoding.md R45 to R49). -/
theorem decodeWord_eq_ok_iff (l : WordLayout) (rule : PairRule) (w : Word) (i : Instr) :
    decodeWord l rule w = .ok i ↔
      w &&& l.fixedMask = l.fixedBits ∧ sysFields l w = fieldsOf i.variant ∧
      rtField l w = i.rt ∧ pairOf rule i.rt = some i.rt2 := by
  have hpair : (rtField l w = i.rt ∧ pairOf rule i.rt = some i.rt2) ↔
      rtField l w = i.rt ∧ pairOf rule (rtField l w) = some i.rt2 :=
    and_congr_right fun h => by rw [h]
  rw [hpair, ← variantOf_eq_some_iff]
  unfold decodeWord
  split
  · next hfixed =>
    cases variantOf (sysFields l w) with
    | none => simp
    | some v =>
      cases pairOf rule (rtField l w) with
      | none => simp
      | some t2 => simp [hfixed, mkInstr_eq_iff]
  · next hfixed => simp [hfixed]

/-- Settles O1: the inversion lemma of the decoder at each of the two instructions, its field equation taken apart into
the five values of R46 and R47. -/
theorem sourceFieldsSelectTheInstruction : Obligations.SourceFieldsSelectTheInstruction := by
  intro l rule w t t2
  constructor <;>
    simp only [decodeWord_eq_ok_iff, sysFields_eq_iff, Instr.variant, fieldsOf, Instr.rt, Instr.rt2, and_assoc]

end Sys2Proof

/-! ## Proofs: the invalidation operation

What the two instructions issue is one record, `attr` apart (`issuedRecord`, `issuedAttr`, tied to `exec` by
`exec_next_issued`); what the complete step does is `step_complete_pending`, and what it waits for is
`holdsUp_eq_false_iff`. -/

namespace Sys2Proof.Machine

/-! ### The fields of the operand -/

/-- The cuts of R60 are adjacent, so joining the fields one by one gives the operand back. -/
theorem append_opFields (op : Operand) :
    opRes0High op ++ opVA op ++ opASID op ++ opTTL op ++ opRes0Low op = op := by
  have hVA : opRes0High op ++ opVA op = op.extractLsb' 64 64 :=
    BitVec.extractLsb'_append_extractLsb'_eq_extractLsb' rfl
  have hASID : op.extractLsb' 64 64 ++ opASID op = op.extractLsb' 48 80 :=
    BitVec.extractLsb'_append_extractLsb'_eq_extractLsb' rfl
  have hTTL : op.extractLsb' 48 80 ++ opTTL op = op.extractLsb' 44 84 :=
    BitVec.extractLsb'_append_extractLsb'_eq_extractLsb' rfl
  have hLow : op.extractLsb' 44 84 ++ opRes0Low op = op.extractLsb' 0 128 :=
    BitVec.extractLsb'_append_extractLsb'_eq_extractLsb' rfl
  rw [hVA, hASID, hTTL, hLow, BitVec.extractLsb'_eq_self]

/-- Settles O6: the joined fields by `append_opFields`, and each field bit by bit. -/
theorem operandFieldsPartition : Obligations.OperandFieldsPartition := fun op =>
  ⟨append_opFields op,
    fun i hi => by simp [opRes0High, hi],
    fun i hi => by simp [opVA, hi],
    fun i hi => by simp [opASID, hi],
    fun i hi => by simp [opTTL, hi],
    fun i hi => by simp [opRes0Low, hi]⟩

/-! ### What the two instructions issue -/

/-- The record an execution at any level that completes issues, `attr` apart (41_tlbip_vae1.md R90). -/
def issuedRecord (c : Config) (pe : PE) (attr : TlbiAttr) (op : Operand) : TlbiRecord :=
  if pe.el = .el1 then recordAtEL1 c pe attr op else recordAboveEL1 c pe attr op

/-- The `attr` each variant passes (40_tlbip_operation.md R82). -/
def issuedAttr (c : Config) (pe : PE) : Variant → TlbiAttr
  | .vae1 => if pe.el = .el1 then attrAtEL1 c pe else .allAttr
  | .vae1nxs => .excludeXS

theorem ne_el1_of_el2_or_el3 {l : EL} (h : l = .el2 ∨ l = .el3) : l ≠ .el1 := by
  rcases h with rfl | rfl <;> decide

theorem issuedRecord_of_el1 {c : Config} {pe : PE} {a : TlbiAttr} {op : Operand} (h : pe.el = .el1) :
    issuedRecord c pe a op = recordAtEL1 c pe a op := if_pos h

theorem issuedRecord_of_ne_el1 {c : Config} {pe : PE} {a : TlbiAttr} {op : Operand} (h : pe.el ≠ .el1) :
    issuedRecord c pe a op = recordAboveEL1 c pe a op := if_neg h

theorem issuedAttr_vae1_of_el1 {c : Config} {pe : PE} (h : pe.el = .el1) :
    issuedAttr c pe .vae1 = attrAtEL1 c pe := if_pos h

theorem issuedAttr_vae1_of_ne_el1 {c : Config} {pe : PE} (h : pe.el ≠ .el1) :
    issuedAttr c pe .vae1 = .allAttr := if_neg h

/-- The listings put `attr` into the record and read it nowhere else. -/
theorem issuedRecord_eq_with_attr (c : Config) (pe : PE) (a b : TlbiAttr) (op : Operand) :
    issuedRecord c pe b op = { issuedRecord c pe a op with attr := b } := by
  unfold issuedRecord recordAboveEL1
  split
  · rfl
  · split <;> rfl

@[simp] theorem issuedRecord_attr (c : Config) (pe : PE) (a : TlbiAttr) (op : Operand) :
    (issuedRecord c pe a op).attr = a := by
  rw [issuedRecord_eq_with_attr c pe a a]

/-- `TLBIP VAE1` excludes XS accesses at EL1 under the condition of R118; the other form always does. -/
theorem issuedAttr_eq_excludeXS_iff (c : Config) (pe : PE) (v : Variant) :
    issuedAttr c pe v = .excludeXS ↔
      v = .vae1nxs ∨ (pe.el = .el1 ∧ c.featXS = true ∧ c.featHCX = true ∧
        pe.hcrxEl2EnabledReads = true ∧ pe.hcrxEl2.fnxs = 1#1) := by
  cases v with
  | vae1nxs => simp [issuedAttr]
  | vae1 =>
    by_cases hel : pe.el = .el1
    · simp [issuedAttr_vae1_of_el1 hel, attrAtEL1, hcrxEl2Enabled, hel, and_assoc]
    · simp [issuedAttr_vae1_of_ne_el1 hel, hel]

/-- A next state of either instruction, in one form: the executing PE issued `issuedRecord` with the `attr` of the
variant. -/
theorem exec_next_issued {i : Instr} {s u : State} (h : exec i s = .next u) :
    ∃ p pe, s.executing = some (p, pe) ∧
      u = issueAndAdvance p
        (issuedRecord s.cfg pe (issuedAttr s.cfg pe i.variant) (operandOf pe i.rt i.rt2)) s := by
  cases i with
  | tlbipVae1 t t2 =>
    obtain ⟨p, pe, he, -, ⟨hel, -, -, rfl⟩ | ⟨hel, rfl⟩⟩ := execTlbipVae1_next h
    · exact ⟨p, pe, he, by rw [issuedRecord_of_el1 hel, Instr.variant, issuedAttr_vae1_of_el1 hel]; rfl⟩
    · have hne : pe.el ≠ .el1 := ne_el1_of_el2_or_el3 hel
      exact ⟨p, pe, he, by rw [issuedRecord_of_ne_el1 hne, Instr.variant, issuedAttr_vae1_of_ne_el1 hne]; rfl⟩
  | tlbipVae1nxs t t2 =>
    obtain ⟨p, pe, he, -, -, ⟨hel, -, -, rfl⟩ | ⟨hel, rfl⟩⟩ := execTlbipVae1nxs_next h
    · exact ⟨p, pe, he, by rw [issuedRecord_of_el1 hel]; rfl⟩
    · exact ⟨p, pe, he, by rw [issuedRecord_of_ne_el1 (ne_el1_of_el2_or_el3 hel)]; rfl⟩

/-- No requirement of R77 reads `attr`. -/
theorem required_with_attr (c : Config) (r : TlbiRecord) (a : TlbiAttr) (e : TlbEntry) :
    required c { r with attr := a } e = required c r e := rfl

theorem required_issuedRecord (c : Config) (pe : PE) (a b : TlbiAttr) (op : Operand) (e : TlbEntry) :
    required c (issuedRecord c pe b op) e = required c (issuedRecord c pe a op) e := by
  rw [issuedRecord_eq_with_attr c pe a b, required_with_attr]

/-- What an invalidation leaves of a TLB depends on the record by its required entries only. -/
theorem invalidateTlb_congr {c : Config} {r r' : TlbiRecord} (h : ∀ e, required c r' e = required c r e)
    (keeps : TlbEntry → Bool) (tlb : List TlbEntry) :
    invalidateTlb c r' keeps tlb = invalidateTlb c r keeps tlb := by
  simp only [invalidateTlb, h]

/-- Settles O23: both variants issue `issuedRecord` of the one executing PE, and neither the required entries, the scope
nor the effect on a TLB reads `attr`. -/
theorem variantsPerformTheSameInvalidation : Obligations.VariantsPerformTheSameInvalidation := by
  intro s u u' t t2 h h'
  obtain ⟨p, pe, he, rfl⟩ := exec_next_issued h
  obtain ⟨p', pe', he', rfl⟩ := exec_next_issued h'
  obtain ⟨rfl, rfl⟩ : p = p' ∧ pe = pe' := by simpa [he] using he'
  have hrec := issuedRecord_eq_with_attr s.cfg pe (issuedAttr s.cfg pe .vae1) .excludeXS (operandOf pe t t2)
  exact ⟨_, _, issueAndAdvance_pending .., issueAndAdvance_pending .., rfl, hrec,
    fun _ => required_issuedRecord .., congrArg (fun r => scope s p r.shareability) hrec,
    invalidateTlb_congr fun _ => required_issuedRecord ..⟩

/-! ### Completion -/

/-- An access holds up a completion exactly when R81 and R82 say so; here, what it means that it does not. -/
theorem holdsUp_eq_false_iff (s : State) (v : Invalidation) (a : Access) :
    holdsUp s v a = false ↔
      (a.pe ∈ scope s v.issuer v.record.shareability → v.record.attr = .allAttr ∨ a.xs = 0#1 →
        ¬ ∃ e ∈ a.used, required s.cfg v.record e = true) := by
  rw [← Bool.not_eq_true]
  simp only [holdsUp, Bool.and_eq_true, Bool.or_eq_true, decide_eq_true_eq, beq_iff_eq, List.any_eq_true,
    not_and, and_imp]

/-- With XS accesses excluded, an access whose `xs` is 1 holds nothing up (R82). -/
theorem holdsUp_of_excludeXS_of_xs_one (s : State) {v : Invalidation} {a : Access}
    (hattr : v.record.attr = .excludeXS) (hxs : a.xs = 1#1) : holdsUp s v a = false := by
  simp [holdsUp, hattr, hxs]

/-- One more access in flight matters to a completion only by holding it up. -/
theorem canComplete_setInFlight_cons (s : State) (v : Invalidation) (a : Access) :
    canComplete (s.setInFlight (a :: s.inFlight)) v = (!holdsUp s v a && canComplete s v) := by
  have hscope : ∀ l, scope (s.setInFlight l) v.issuer v.record.shareability =
      scope s v.issuer v.record.shareability := fun l => scope_congr rfl rfl ..
  have hholds : ∀ l, holdsUp (s.setInFlight l) v = holdsUp s v := fun l => by
    funext b
    simp [holdsUp, hscope]
  simp only [canComplete, hscope, hholds, State.setInFlight_inFlight, List.all_cons]
  ac_rfl

/-- What a complete turn does to `Pending` (R86). -/
theorem step_complete_pending {s t : State} {i : Nat} {v : Invalidation} (hturn : s.turn = .complete i)
    (hv : s.pending[i]? = some v) (h : step s = .next t) :
    t.pending = if canComplete s v = true then s.pending.eraseIdx i else s.pending := by
  have ht : (completeStep i s).nextTurn = t := by simpa [step, hturn] using h
  subst ht
  simp only [State.nextTurn_pending, completeStep, hv]
  split <;> rfl

/-- A complete turn that changes `Pending` was enabled (R86). -/
theorem canComplete_of_step_pending_ne {s t : State} {i : Nat} {v : Invalidation} (hturn : s.turn = .complete i)
    (hv : s.pending[i]? = some v) (h : step s = .next t) (hne : t.pending ≠ s.pending) :
    canComplete s v = true := by
  by_contra hc
  exact hne (by rw [step_complete_pending hturn hv h, if_neg hc])

/-- Settles O29: the completion was enabled, and with `TLBI_AllAttr` every access of the scope is waited for. -/
theorem completionWaitsForEveryAccess : Obligations.CompletionWaitsForEveryAccess := by
  intro s t i v hturn hv hattr h hne
  obtain ⟨happlied, -, hfree⟩ := (canComplete_iff s v).1 (canComplete_of_step_pending_ne hturn hv h hne)
  exact ⟨happlied, fun a ha hpe => (holdsUp_eq_false_iff s v a).1 (hfree a ha) hpe (.inl hattr)⟩

/-- Settles O30: the completion was enabled, so every access of the scope with `xs` 0 is waited for; one with `xs` 1
leaves the enabling condition as it is; and the record's `attr` is `issuedAttr`. -/
theorem nxsCompletionWaitsForXSZeroOnly : Obligations.NxsCompletionWaitsForXSZeroOnly := by
  refine ⟨fun s i v hturn hv hattr => ⟨fun t h hne => ?_, fun a t t' hxs h h' => ?_⟩,
    fun i s u p pe hexec h => ?_⟩
  · obtain ⟨happlied, -, hfree⟩ := (canComplete_iff s v).1 (canComplete_of_step_pending_ne hturn hv h hne)
    exact ⟨happlied, fun a ha hpe hxs => (holdsUp_eq_false_iff s v a).1 (hfree a ha) hpe (.inr hxs)⟩
  · have hcan : canComplete (s.setInFlight (a :: s.inFlight)) v = canComplete s v := by
      simp [canComplete_setInFlight_cons, holdsUp_of_excludeXS_of_xs_one s hattr hxs]
    rw [step_complete_pending hturn hv h,
      step_complete_pending (s := s.setInFlight (a :: s.inFlight)) hturn hv h', hcan, State.setInFlight_pending]
  · obtain ⟨p', pe', he, rfl⟩ := exec_next_issued h
    obtain ⟨rfl, rfl⟩ : p' = p ∧ pe' = pe := by
      simpa [(State.executing_eq_some s p pe).2 hexec, eq_comm] using he
    refine ⟨_, issueAndAdvance_pending .., ?_⟩
    rw [issuedRecord_attr, issuedAttr_eq_excludeXS_iff]

end Sys2Proof.Machine

/-! ## Proofs: the exceptions

Three rules say what `exec` answers, one per outcome: `exec_eq_undefined`, `exec_eq_trap` and `exec_eq_next`. Their
conditions are those of the table of 60_exceptions.md R110 in the order of R113, so they exclude one another and leave
nothing out. -/

namespace Sys2Proof.Machine

/-- The trap conditions at EL1 are the two tests of the listing (60_exceptions.md R110). -/
theorem trapsFromEl1_vae1_iff (c : Config) (pe : PE) (t t2 : Reg) :
    Claims.TrapsFromEl1 c pe (.tlbipVae1 t t2) ↔ ttlbTrap c pe = true ∨ fineGrainedTrap c pe = true := by
  rw [Claims.TrapsFromEl1, and_or_left]
  simp [ttlbTrap, fineGrainedTrap, and_assoc]

theorem trapsFromEl1_vae1nxs_iff (c : Config) (pe : PE) (t t2 : Reg) :
    Claims.TrapsFromEl1 c pe (.tlbipVae1nxs t t2) ↔ ttlbTrap c pe = true ∨ fineGrainedTrapNXS c pe = true := by
  rw [Claims.TrapsFromEl1, and_or_left]
  simp [ttlbTrap, fineGrainedTrapNXS, hcrxEl2Enabled, and_assoc]

section
variable {s : State} {p : PEId} {pe : PE} (hexec : Claims.Executes s p pe)
include hexec

/-- A claim's executing PE is the one the meanings run on. -/
theorem whenExecuting_of_executes (f : PEId → PE → Result) : whenExecuting s f = f p pe :=
  whenExecuting_of_executing ((State.executing_eq_some s p pe).2 hexec) f

/-- `Undefined()`: a feature is absent, whatever the level, or the level is EL0 (60_exceptions.md R110). -/
theorem exec_eq_undefined {i : Instr} (h : ¬ Claims.Present s.cfg i ∨ pe.el = .el0) :
    exec i s = .fault .undefined := by
  cases i with
  | tlbipVae1 t t2 =>
    simp only [exec, execTlbipVae1, whenExecuting_of_executes hexec, raiseUndefined]
    rcases h with hd | hel
    · simp [Bool.eq_false_of_not_eq_true hd]
    · simp [hel]
  | tlbipVae1nxs t t2 =>
    simp only [exec, execTlbipVae1nxs, whenExecuting_of_executes hexec, raiseUndefined]
    rcases h with h | hel
    · rcases not_and_or.1 h with hd | hx
      · simp [hd]
      · simp [hx]
    · simp [hel]

/-- The trap to EL2 comes after the feature checks (60_exceptions.md R110, R113). -/
theorem exec_eq_trap {i : Instr} (hpres : Claims.Present s.cfg i) (hel : pe.el = .el1)
    (htrap : Claims.TrapsFromEl1 s.cfg pe i) : exec i s = .fault (.systemAccessTrap .el2 0x14) := by
  cases i with
  | tlbipVae1 t t2 =>
    have hd : s.cfg.featD128 = true := hpres
    simp only [exec, execTlbipVae1, whenExecuting_of_executes hexec, raiseSystemAccessTrap]
    rcases (trapsFromEl1_vae1_iff ..).1 htrap with h | h <;> simp [hd, hel, h]
  | tlbipVae1nxs t t2 =>
    obtain ⟨hd, hx⟩ : s.cfg.featD128 = true ∧ s.cfg.featXS = true := hpres
    simp only [exec, execTlbipVae1nxs, whenExecuting_of_executes hexec, raiseSystemAccessTrap]
    rcases (trapsFromEl1_vae1nxs_iff ..).1 htrap with h | h <;> simp [hd, hx, hel, h]

/-- Otherwise the instruction completes: the executing PE issues `issuedRecord` (41_tlbip_vae1.md R90, R93). -/
theorem exec_eq_next {i : Instr} (hpres : Claims.Present s.cfg i) (hel0 : pe.el ≠ .el0)
    (htrap : ¬ (pe.el = .el1 ∧ Claims.TrapsFromEl1 s.cfg pe i)) :
    exec i s = .next (issueAndAdvance p
      (issuedRecord s.cfg pe (issuedAttr s.cfg pe i.variant) (operandOf pe i.rt i.rt2)) s) := by
  cases i with
  | tlbipVae1 t t2 =>
    have hd : s.cfg.featD128 = true := hpres
    simp only [exec, execTlbipVae1, whenExecuting_of_executes hexec]
    cases hel : pe.el with
    | el0 => exact absurd hel hel0
    | el1 =>
      obtain ⟨httlb, hfine⟩ := not_or.1 fun h => htrap ⟨hel, (trapsFromEl1_vae1_iff ..).2 h⟩
      simp [hd, hel, httlb, hfine, issuedRecord, issuedAttr, Instr.variant, Instr.rt, Instr.rt2]
    | el2 | el3 => simp [hd, hel, issuedRecord, issuedAttr, Instr.variant, Instr.rt, Instr.rt2]
  | tlbipVae1nxs t t2 =>
    obtain ⟨hd, hx⟩ : s.cfg.featD128 = true ∧ s.cfg.featXS = true := hpres
    simp only [exec, execTlbipVae1nxs, whenExecuting_of_executes hexec]
    cases hel : pe.el with
    | el0 => exact absurd hel hel0
    | el1 =>
      obtain ⟨httlb, hfine⟩ := not_or.1 fun h => htrap ⟨hel, (trapsFromEl1_vae1nxs_iff ..).2 h⟩
      simp [hd, hx, hel, httlb, hfine, issuedRecord, issuedAttr, Instr.variant, Instr.rt, Instr.rt2]
    | el2 | el3 => simp [hd, hx, hel, issuedRecord, issuedAttr, Instr.variant, Instr.rt, Instr.rt2]

end

/-- Settles O15: the three rules, by which of the two conditions holds. -/
theorem exceptionsAreExactlyTheTable : Obligations.ExceptionsAreExactlyTheTable := by
  intro i s p pe hexec undefinedHolds trapHolds
  by_cases hu : undefinedHolds
  · have h := exec_eq_undefined hexec hu
    simp [h, hu]
  · obtain ⟨hpres, hel0⟩ : Claims.Present s.cfg i ∧ pe.el ≠ .el0 := by simpa [undefinedHolds] using hu
    by_cases ht : trapHolds
    · have h := exec_eq_trap hexec hpres ht.1 ht.2
      simp [h, hu, ht]
    · have h := exec_eq_next hexec hpres hel0 ht
      simp [h, hu, ht]

end Sys2Proof.Machine

/-! ## Proofs: the default encoding

Under the default layout a word's fixed bits and fields are right exactly when it agrees with the row of the opcode
table under the row's mask (`fixed_and_fields_iff_row`), so a word that decodes is the encoder's
(`decodeWord_default_eq_ok_iff`). -/

namespace Sys2Proof

open Laws.RowMatch (rowMatch)

/-- A mask of all bits from `k` up clears the bits below. -/
theorem and_allOnes_shiftRight_shiftLeft {n : Nat} (w : BitVec n) (k : Nat) :
    w &&& (BitVec.allOnes n >>> k <<< k) = w >>> k <<< k := by
  ext i hi
  by_cases h : i < k
  · simp [h]
  · have hk : k + (i - k) = i := by omega
    simp [h, hk, hi]

/-- The row's mask clears the five bits of `Rt`. -/
theorem and_rowMask (w : Word) : w &&& 0xFFFFFFE0#32 = w >>> 5 <<< 5 :=
  and_allOnes_shiftRight_shiftLeft w 5

theorem and_fixedMask (w : Word) : w &&& WordLayout.default.fixedMask = w >>> 21 <<< 21 :=
  and_allOnes_shiftRight_shiftLeft w 21

/-- The fixed bits and the five fields are the 27 bits above `Rt`. -/
theorem fixed_and_fields_iff_row (w : Word) (i : Instr) :
    (w &&& WordLayout.default.fixedMask = WordLayout.default.fixedBits ∧
        sysFields WordLayout.default w = fieldsOf i.variant) ↔
      w &&& 0xFFFFFFE0#32 = rowMatch i := by
  rw [and_fixedMask, and_rowMask, sysFields_eq_iff]
  have hw := w.isLt
  cases i <;>
    simp [WordLayout.default, sysFields, fieldsOf, Instr.variant, rowMatch, BitVec.toNat_eq,
      Nat.shiftLeft_eq, Nat.shiftRight_eq_div_pow] <;>
    omega

/-- A word is its row under the mask and its `Rt`. -/
theorem eq_of_row_eq_of_rt_eq {w w' : Word} (hrow : w &&& 0xFFFFFFE0#32 = w' &&& 0xFFFFFFE0#32)
    (hrt : w.extractLsb' 0 5 = w'.extractLsb' 0 5) : w = w' := by
  rw [and_rowMask, and_rowMask] at hrow
  have hw := w.isLt
  have hw' := w'.isLt
  simp [BitVec.toNat_eq, Nat.shiftLeft_eq, Nat.shiftRight_eq_div_pow] at hrow hrt ⊢
  omega

theorem encodeWord_matches_row : (i : Instr) → Laws.RowMatch.Statement i
  | .tlbipVae1 t t2 => Laws.RowMatch.tlbipVae1 t t2
  | .tlbipVae1nxs t t2 => Laws.RowMatch.tlbipVae1nxs t t2

/-- The words that decode to an instruction: the one the encoder gives, where its registers are a pair. -/
theorem decodeWord_default_eq_ok_iff (rule : PairRule) (w : Word) (i : Instr) :
    decodeWord WordLayout.default rule w = .ok i ↔
      w = encodeWord WordLayout.default i ∧ pairOf rule i.rt = some i.rt2 := by
  obtain ⟨hrow, hrt⟩ := encodeWord_matches_row i
  rw [decodeWord_eq_ok_iff, ← and_assoc, fixed_and_fields_iff_row, ← and_assoc]
  refine and_congr_left fun _ => ⟨fun ⟨hrow', hrt'⟩ => ?_, ?_⟩
  · exact eq_of_row_eq_of_rt_eq (hrow'.trans hrow.symm) (hrt'.trans hrt.symm)
  · rintro rfl
    exact ⟨hrow, hrt⟩

theorem wellFormed_iff (rule : PairRule) (i : Instr) :
    i.wellFormed rule = true ↔ pairOf rule i.rt = some i.rt2 := by
  cases i <;> simp [Instr.wellFormed, Instr.rt, Instr.rt2]

/-! ### Words as bytes -/

/-- Cutting a word into bytes and joining them gives it back (20_memory.md R32). -/
theorem wordOfBytes_cuts (w : Word) :
    wordOfBytes (w.extractLsb' 0 8) (w.extractLsb' 8 8) (w.extractLsb' 16 8) (w.extractLsb' 24 8) = w := by
  have h16 : w.extractLsb' 24 8 ++ w.extractLsb' 16 8 = w.extractLsb' 16 16 :=
    BitVec.extractLsb'_append_extractLsb'_eq_extractLsb' rfl
  have h8 : w.extractLsb' 16 16 ++ w.extractLsb' 8 8 = w.extractLsb' 8 24 :=
    BitVec.extractLsb'_append_extractLsb'_eq_extractLsb' rfl
  have h0 : w.extractLsb' 8 24 ++ w.extractLsb' 0 8 = w.extractLsb' 0 32 :=
    BitVec.extractLsb'_append_extractLsb'_eq_extractLsb' rfl
  rw [wordOfBytes, h16, h8, h0, BitVec.extractLsb'_eq_self]

/-- Joining four bytes and cutting the word gives them back (20_memory.md R32). -/
theorem bytesOfWord_wordOfBytes (b0 b1 b2 b3 : Byte) : bytesOfWord (wordOfBytes b0 b1 b2 b3) = [b0, b1, b2, b3] := by
  simp only [bytesOfWord, wordOfBytes, List.cons.injEq, and_true]
  refine ⟨?_, ?_, ?_, ?_⟩ <;> ext i hi <;> grind

/-- The decoder reads one word and hands on the bytes after it. -/
theorem decode_bytesOfWord_append (l : WordLayout) (rule : PairRule) (w : Word) (rest : List Byte) :
    decode l rule (bytesOfWord w ++ rest) = (decodeWord l rule w).map fun i => (i, rest) := by
  simp only [bytesOfWord, List.cons_append, List.nil_append, decode, wordOfBytes_cuts]
  cases decodeWord l rule w <;> rfl

/-- Bytes that decode are those of a word that decodes, and the rest. -/
theorem decode_eq_ok_iff (l : WordLayout) (rule : PairRule) (bs rest : List Byte) (i : Instr) :
    decode l rule bs = .ok (i, rest) ↔ ∃ w, bs = bytesOfWord w ++ rest ∧ decodeWord l rule w = .ok i := by
  constructor
  · intro h
    match bs, h with
    | b0 :: b1 :: b2 :: b3 :: rest', h =>
      have hbs : b0 :: b1 :: b2 :: b3 :: rest' = bytesOfWord (wordOfBytes b0 b1 b2 b3) ++ rest' := by
        rw [bytesOfWord_wordOfBytes]; rfl
      rw [hbs, decode_bytesOfWord_append] at h
      cases hw : decodeWord l rule (wordOfBytes b0 b1 b2 b3) with
      | error e => simp [hw, Except.map] at h
      | ok j =>
        obtain ⟨rfl, rfl⟩ : j = i ∧ rest' = rest := by simpa [hw, Except.map] using h
        exact ⟨_, hbs, hw⟩
  · rintro ⟨w, rfl, hw⟩
    rw [decode_bytesOfWord_append, hw]
    rfl

/-- Settles O3: the encoder's word decodes to the instruction, and its bytes join to it. -/
theorem decodeOfEncodeIsTheInstruction : Obligations.DecodeOfEncodeIsTheInstruction := fun i _ hwf =>
  (decode_eq_ok_iff ..).2
    ⟨_, rfl, (decodeWord_default_eq_ok_iff ..).2 ⟨rfl, (wellFormed_iff _ i).1 hwf⟩⟩

/-- Settles O4: the bytes are those of a word that decodes, and that word is the encoder's. -/
theorem decodedWordEncodesBack : Obligations.DecodedWordEncodesBack := by
  intro bs rest i h
  obtain ⟨w, rfl, hw⟩ := (decode_eq_ok_iff ..).1 h
  obtain ⟨rfl, hpair⟩ := (decodeWord_default_eq_ok_iff ..).1 hw
  exact ⟨(wellFormed_iff _ i).2 hpair, rfl⟩

/-! ### The decoder as a whole -/

/-- The default pair rule's table, read at a register number. -/
theorem pairOf_default : ∀ t : Reg, pairOf PairRule.default t = defaultPairOf t := by decide

/-- A word of an instruction's row: its `Rt` alone decides. -/
theorem decodeWord_of_row {w : Word} {v : Variant} (rule : PairRule)
    (h : w &&& 0xFFFFFFE0#32 = rowMatch (mkInstr v 0#5 0#5)) :
    decodeWord WordLayout.default rule w =
      (pairOf rule (w.extractLsb' 0 5)).elim (.error (.unpairedRegister w))
        fun t2 => .ok (mkInstr v (w.extractLsb' 0 5) t2) := by
  obtain ⟨hfixed, hfields⟩ := (fixed_and_fields_iff_row w (mkInstr v 0#5 0#5)).2 h
  have hv : variantOf (sysFields WordLayout.default w) = some v :=
    (variantOf_eq_some_iff ..).2 (hfields.trans (by cases v <;> rfl))
  have hrt : rtField WordLayout.default w = w.extractLsb' 0 5 := rfl
  simp only [decodeWord, hfixed, if_true, hv, hrt]
  cases pairOf rule (w.extractLsb' 0 5) <;> rfl

/-- A word of neither row is outside the spec (30_encoding.md R54). -/
theorem decodeWord_of_no_row {w : Word} (rule : PairRule) (h : ∀ i, w &&& 0xFFFFFFE0#32 ≠ rowMatch i) :
    decodeWord WordLayout.default rule w = .error (.outsideSpec w) := by
  unfold decodeWord
  split
  · next hfixed =>
    cases hv : variantOf (sysFields WordLayout.default w) with
    | none => rfl
    | some v =>
      have hfields := (variantOf_eq_some_iff ..).1 hv
      have hrow := (fixed_and_fields_iff_row w (mkInstr v 0#5 0#5)).1
        ⟨hfixed, hfields.trans (by cases v <;> rfl)⟩
      exact absurd hrow (h _)
  · rfl

/-- Bit 12 of a word is that of its row. -/
theorem getLsbD_twelve_of_row {w row : Word} (h : w &&& 0xFFFFFFE0#32 = row) : w.getLsbD 12 = row.getLsbD 12 := by
  simpa using congrArg (·.getLsbD 12) h

/-- Settles O2: the two rows by `decodeWord_of_row`, told apart by bit 12, with the pair rule's table as the if-chain of
`defaultPairOf`; every other word by `decodeWord_of_no_row`. -/
theorem wordMatchesMaskAndPairRule : Obligations.WordMatchesMaskAndPairRule := by
  intro w
  by_cases h1 : w &&& 0xFFFFFFE0#32 = 0xD5488720#32
  · have hbit : w.getLsbD 12 = false := getLsbD_twelve_of_row h1
    rw [if_pos (.inl h1), decodeWord_of_row (v := .vae1) _ h1, pairOf_default, defaultPairOf]
    split_ifs <;> simp_all [mkInstr]
  by_cases h2 : w &&& 0xFFFFFFE0#32 = 0xD5489720#32
  · have hbit : w.getLsbD 12 = true := getLsbD_twelve_of_row h2
    rw [if_pos (.inr h2), decodeWord_of_row (v := .vae1nxs) _ h2, pairOf_default, defaultPairOf]
    split_ifs <;> simp_all [mkInstr]
  · rw [if_neg (not_or.2 ⟨h1, h2⟩)]
    exact decodeWord_of_no_row _ fun i => by cases i <;> assumption

/-- Settles O5: the decoder runs on the eleven words. -/
theorem specWordsDecode : Obligations.SpecWordsDecode := by
  unfold Obligations.SpecWordsDecode
  decide

end Sys2Proof

/-! ## Proofs: the invariants and the runs

A step can do two things: it shrinks the machine (`State.ShrinksTo`: of a PE only the `pc` and the TLB move, the TLB
and `InFlight` lose members, all else stands), and it touches `Pending` in one of three ways (`PendingCases`).
`step_shrinksTo` and `step_pending` say so once, and every invariant follows from them. -/

namespace Sys2Proof.Machine

/-! ### What moves and what shrinks -/

/-- A PE at two moments: all but `pc` and TLB stands, the TLB has lost entries at most, and `pc` has moved by words. -/
structure PE.ShrinksTo (a b : PE) : Prop where
  same : Claims.SamePEButPcAndTlb a b
  tlb : b.tlb.Sublist a.tlb
  pcLow : b.pc.extractLsb' 0 2 = a.pc.extractLsb' 0 2

/-- The machine at two moments: no PE comes or goes, each shrinks, accesses in flight only leave, memory and configuration
stand. -/
structure State.ShrinksTo (s t : State) : Prop where
  cfg : t.cfg = s.cfg
  mem : t.mem = s.mem
  length : t.pes.length = s.pes.length
  inFlight : t.inFlight.Sublist s.inFlight
  pes : ∀ (q : PEId) (b : PE), t.pes[q]? = some b → ∃ a : PE, s.pes[q]? = some a ∧ a.ShrinksTo b

theorem PE.ShrinksTo.refl (a : PE) : a.ShrinksTo a := ⟨rfl, .refl _, rfl⟩

theorem PE.ShrinksTo.trans {a b c : PE} (hab : a.ShrinksTo b) (hbc : b.ShrinksTo c) : a.ShrinksTo c where
  same := by
    have h1 : b = { a with pc := b.pc, tlb := b.tlb } := hab.same
    have h2 : c = { b with pc := c.pc, tlb := c.tlb } := hbc.same
    rw [h1] at h2
    exact h2
  tlb := hbc.tlb.trans hab.tlb
  pcLow := hbc.pcLow.trans hab.pcLow

theorem PE.ShrinksTo.setTlb {a b : PE} (h : a.ShrinksTo b) {l : List TlbEntry} (hl : l.Sublist b.tlb) :
    a.ShrinksTo (b.setTlb l) :=
  h.trans ⟨rfl, hl, rfl⟩

/-- `pc + 4` is as far from a word boundary as `pc`, wrap-around included (log 25). -/
theorem add_four_extractLsb' (pc : Addr) : (pc + 4#64).extractLsb' 0 2 = pc.extractLsb' 0 2 := by
  apply BitVec.eq_of_toNat_eq
  simp

theorem PE.ShrinksTo.advancePc {a b : PE} (h : a.ShrinksTo b) : a.ShrinksTo b.advancePc :=
  h.trans ⟨rfl, .refl _, add_four_extractLsb' _⟩

theorem State.ShrinksTo.refl (s : State) : s.ShrinksTo s :=
  ⟨rfl, rfl, rfl, .refl _, fun _ b hb => ⟨b, hb, .refl b⟩⟩

theorem State.ShrinksTo.trans {s t u : State} (hst : s.ShrinksTo t) (htu : t.ShrinksTo u) : s.ShrinksTo u where
  cfg := htu.cfg.trans hst.cfg
  mem := htu.mem.trans hst.mem
  length := htu.length.trans hst.length
  inFlight := htu.inFlight.trans hst.inFlight
  pes q c hc := by
    obtain ⟨b, hb, hbc⟩ := htu.pes q c hc
    obtain ⟨a, ha, hab⟩ := hst.pes q b hb
    exact ⟨a, ha, hab.trans hbc⟩

/-- Neither the turn, the counter nor `Pending` belongs to what shrinks. -/
theorem State.ShrinksTo.nextTurn {s t : State} (h : s.ShrinksTo t) : s.ShrinksTo t.nextTurn := { h with }

theorem State.ShrinksTo.setPending {s t : State} (h : s.ShrinksTo t) (l : List Invalidation) :
    s.ShrinksTo (t.setPending l) := { h with }

/-! ### What each operation does, in these terms -/

theorem shrinksTo_applyTo (r : TlbiRecord) (s : State) (q : PEId) : s.ShrinksTo (applyTo r s q) where
  cfg := rfl
  mem := rfl
  length := by simp [applyTo]
  inFlight := .refl _
  pes q' b hb := by
    rw [applyTo_getElem?, Option.map_eq_some_iff] at hb
    obtain ⟨a, ha, rfl⟩ := hb
    refine ⟨a, ha, ?_⟩
    split
    · exact (PE.ShrinksTo.refl a).setTlb (invalidateTlb_sublist ..)
    · exact .refl a

theorem shrinksTo_issueAndAdvance (p : PEId) (r : TlbiRecord) (s : State) : s.ShrinksTo (issueAndAdvance p r s) where
  cfg := issueAndAdvance_cfg ..
  mem := issueAndAdvance_mem ..
  length := (issueAndAdvance_spec p r s).2.1
  inFlight := by rw [issueAndAdvance_inFlight]
  pes q b hb := by
    rw [(issueAndAdvance_spec p r s).2.2, Option.map_eq_some_iff] at hb
    obtain ⟨a, ha, rfl⟩ := hb
    refine ⟨a, ha, ?_⟩
    have happlied : a.ShrinksTo (if q ∈ appliedAtIssue s p r then
        a.setTlb (invalidateTlb s.cfg r (Config.freeKeeps s.tick q) a.tlb) else a) := by
      split
      · exact (PE.ShrinksTo.refl a).setTlb (invalidateTlb_sublist ..)
      · exact .refl a
    dsimp only
    split
    · exact happlied.advancePc
    · exact happlied

theorem shrinksTo_accessDoneStep (j : Nat) (s : State) : s.ShrinksTo (accessDoneStep j s) :=
  { State.ShrinksTo.refl s with inFlight := List.eraseIdx_sublist .. }

/-- What every step does but to `Pending`, the turn and the counter. -/
theorem step_shrinksTo {s t : State} (h : step s = .next t) : s.ShrinksTo t := by
  obtain ⟨u, rfl, hu⟩ := step_cases h
  refine State.ShrinksTo.nextTurn ?_
  rcases hu with ⟨_, _, _, -, -, -, hexec⟩ | ⟨_, -, -, rfl⟩ | ⟨i, q, -, rfl⟩ | ⟨i, -, rfl⟩ | ⟨j, -, rfl⟩
  · obtain ⟨p, _, r, -, -, rfl⟩ := exec_next hexec
    exact shrinksTo_issueAndAdvance p r s
  · exact .refl _
  · rcases applyStep_cases i q s with h | ⟨v, -, -, h⟩ <;> rw [h]
    · exact .refl s
    · exact (shrinksTo_applyTo ..).setPending _
  · rcases completeStep_cases i s with h | ⟨v, -, -, h⟩ <;> rw [h]
    · exact .refl s
    · exact (State.ShrinksTo.refl s).setPending _
  · exact shrinksTo_accessDoneStep j s

/-- A PE whose TLB holds no entry that `r` requires to go. -/
def State.CleanAt (s : State) (r : TlbiRecord) (q : PEId) : Prop :=
  ∀ pe, s.pes[q]? = some pe → ∀ e ∈ pe.tlb, required s.cfg r e = false

/-- What can be an element of `Pending` after a step: an old one, an old one applied to one more PE of its scope, or one that
a PE of the machine has just issued. The TLBs it was applied to in the step are clean. -/
inductive PendingCases (s t : State) : Invalidation → Prop where
  | old {v} (hv : v ∈ s.pending) : PendingCases s t v
  | applied {v} (q : PEId) (hv : v ∈ s.pending) (hq : canApply s v q = true) (hclean : t.CleanAt v.record q) :
      PendingCases s t { v with applied := q :: v.applied }
  | issued (p : PEId) (r : TlbiRecord) (hp : p < s.pes.length) (hr : recordWf r = true)
      (hclean : ∀ q ∈ appliedAtIssue s p r, t.CleanAt r q) :
      PendingCases s t { issuer := p, record := r, applied := appliedAtIssue s p r }

theorem cleanAt_applyTo (r : TlbiRecord) (s : State) (q : PEId) : (applyTo r s q).CleanAt r q := by
  intro b hb e he
  rw [applyTo_getElem?, Option.map_eq_some_iff] at hb
  obtain ⟨a, -, rfl⟩ := hb
  rw [if_pos rfl, PE.setTlb_tlb] at he
  obtain ⟨-, hreq, -⟩ := mem_invalidateTlb.1 he
  exact hreq

theorem cleanAt_issueAndAdvance {p q : PEId} {r : TlbiRecord} {s : State} (hq : q ∈ appliedAtIssue s p r) :
    (issueAndAdvance p r s).CleanAt r q := by
  intro b hb e he
  rw [(issueAndAdvance_spec p r s).2.2, Option.map_eq_some_iff] at hb
  obtain ⟨a, -, rfl⟩ := hb
  have he' : e ∈ invalidateTlb s.cfg r (Config.freeKeeps s.tick q) a.tlb := by
    simp only [if_pos hq] at he
    split at he <;> exact he
  rw [issueAndAdvance_cfg]
  exact (mem_invalidateTlb.1 he').2.1

/-- What every step does to `Pending`. -/
theorem step_pending {s t : State} (h : step s = .next t) : ∀ v ∈ t.pending, PendingCases s t v := by
  obtain ⟨u, rfl, hu⟩ := step_cases h
  intro v hv
  rw [State.nextTurn_pending] at hv
  rcases hu with ⟨_, _, _, -, -, -, hexec⟩ | ⟨_, -, -, rfl⟩ | ⟨i, q, -, rfl⟩ | ⟨i, -, rfl⟩ | ⟨j, -, rfl⟩
  · obtain ⟨p, pe, r, he, hr, rfl⟩ := exec_next hexec
    rw [issueAndAdvance_pending, List.mem_append, List.mem_singleton] at hv
    rcases hv with hv | rfl
    · exact .old hv
    · have hp := ((State.executing_eq_some s p pe).1 he).2
      exact .issued p r (List.getElem?_eq_some_iff.1 hp).1 hr fun q hq => cleanAt_issueAndAdvance hq
  · exact .old hv
  · rcases applyStep_cases i q s with h | ⟨w, hw, hq, h⟩ <;> rw [h] at hv ⊢
    · exact .old hv
    · rcases List.mem_or_eq_of_mem_set hv with hv | rfl
      · exact .old hv
      · exact .applied q (List.mem_of_getElem? hw) hq (cleanAt_applyTo w.record s q)
  · rcases completeStep_cases i s with h | ⟨w, -, -, h⟩ <;> rw [h] at hv
    · exact .old hv
    · exact .old (List.mem_of_mem_eraseIdx hv)
  · exact .old hv

/-! ### The invariants -/

theorem State.wf_iff (s : State) :
    s.wf = true ↔ 0 < s.pes.length ∧ (∀ pe ∈ s.pes, peWf s.cfg pe = true) ∧ s.mem.wf = true ∧
      (∀ v ∈ s.pending, invalidationWf s v = true) ∧ ∀ a ∈ s.inFlight, accessWf s a = true := by
  simp [State.wf, and_assoc]

theorem peWf_iff (c : Config) (pe : PE) :
    peWf c pe = true ↔ pe.pc.extractLsb' 0 2 = 0#2 ∧ elImplemented c pe.el = true ∧
      (∀ e ∈ pe.tlb, entryWf c e = true) ∧ pe.tlb.Nodup := by
  simp [peWf, and_assoc]

theorem invalidationWf_iff (s : State) (v : Invalidation) :
    invalidationWf s v = true ↔ v.issuer < s.pes.length ∧ recordWf v.record = true ∧
      (∀ q ∈ v.applied, q ∈ scope s v.issuer v.record.shareability) ∧ v.applied.Nodup := by
  simp [invalidationWf, and_assoc]

theorem canApply_iff (s : State) (v : Invalidation) (q : PEId) :
    canApply s v q = true ↔ q ∈ scope s v.issuer v.record.shareability ∧ q ∉ v.applied := by
  simp [canApply]

theorem PE.ShrinksTo.peWf {c : Config} {a b : PE} (h : a.ShrinksTo b) (ha : peWf c a = true) : peWf c b = true := by
  obtain ⟨hpc, hel, htlb, hnodup⟩ := (peWf_iff c a).1 ha
  have hb : b.el = a.el := by rw [show b = { a with pc := b.pc, tlb := b.tlb } from h.same]
  exact (peWf_iff c b).2
    ⟨h.pcLow.trans hpc, hb ▸ hel, fun e he => htlb e (h.tlb.subset he), hnodup.sublist h.tlb⟩

/-- Which invalidations are well formed depends on the configuration and on how many PEs there are. -/
theorem invalidationWf_congr {s t : State} (hc : t.cfg = s.cfg) (hl : t.pes.length = s.pes.length) (v : Invalidation) :
    invalidationWf t v = invalidationWf s v := by
  simp only [invalidationWf, scope_congr hc hl, hl]

theorem mem_appliedAtIssue_iff (s : State) (p q : PEId) (r : TlbiRecord) :
    q ∈ appliedAtIssue s p r ↔ s.cfg.tlbiAtomic = true ∧ q ∈ scope s p r.shareability := by
  unfold appliedAtIssue
  split <;> simp_all

theorem appliedAtIssue_nodup (s : State) (p : PEId) (r : TlbiRecord) : (appliedAtIssue s p r).Nodup := by
  unfold appliedAtIssue
  split
  · exact scope_nodup ..
  · exact List.nodup_nil

/-- In each of the three cases the element of `Pending` is well formed. -/
theorem PendingCases.invalidationWf {s t : State} {v : Invalidation} (h : PendingCases s t v)
    (hs : ∀ v ∈ s.pending, invalidationWf s v = true) : Machine.invalidationWf s v = true := by
  cases h with
  | old hv => exact hs v hv
  | applied q hv hq =>
    obtain ⟨hissuer, hrecord, hscope, hnodup⟩ := (invalidationWf_iff ..).1 (hs _ hv)
    obtain ⟨hq, hnew⟩ := (canApply_iff ..).1 hq
    exact (invalidationWf_iff ..).2
      ⟨hissuer, hrecord, List.forall_mem_cons.2 ⟨hq, hscope⟩, List.nodup_cons.2 ⟨hnew, hnodup⟩⟩
  | issued p r hp hr =>
    have hscope : ∀ q ∈ appliedAtIssue s p r, q ∈ scope s p r.shareability := fun q hq =>
      ((mem_appliedAtIssue_iff s p q r).1 hq).2
    exact (invalidationWf_iff ..).2 ⟨hp, hr, hscope, appliedAtIssue_nodup s p r⟩

/-- Settles O39: PEs, memory and `InFlight` only shrink, and an element of `Pending` is well formed in each of the three
cases. -/
theorem everyStepKeepsWellFormed : Obligations.EveryStepKeepsWellFormed := by
  intro s t hwf h
  obtain ⟨hpos, hpes, hmem, hpending, hinFlight⟩ := (State.wf_iff s).1 hwf
  have hshrinks := step_shrinksTo h
  refine (State.wf_iff t).2 ⟨by rw [hshrinks.length]; exact hpos, fun pe hpe => ?_, by rw [hshrinks.mem]; exact hmem,
    fun v hv => ?_, fun a ha => ?_⟩
  · obtain ⟨q, hq⟩ := List.mem_iff_getElem?.1 hpe
    obtain ⟨pe', hpe', hsh⟩ := hshrinks.pes q pe hq
    rw [hshrinks.cfg]
    exact hsh.peWf (hpes pe' (List.mem_of_getElem? hpe'))
  · rw [invalidationWf_congr hshrinks.cfg hshrinks.length]
    exact (step_pending h v hv).invalidationWf hpending
  · have ha' := hinFlight a (hshrinks.inFlight.subset ha)
    rwa [accessWf, hshrinks.length, hshrinks.cfg]

/-- A clean TLB stays clean: no step refills one (decision D23). -/
theorem State.ShrinksTo.cleanAt {s t : State} (h : s.ShrinksTo t) {r : TlbiRecord} {q : PEId} (hs : s.CleanAt r q) :
    t.CleanAt r q := by
  intro b hb e he
  obtain ⟨a, ha, hab⟩ := h.pes q b hb
  rw [h.cfg]
  exact hs a ha e (hab.tlb.subset he)

/-- Settles O40: a TLB an element was applied to earlier stays clean, and one it was applied to in the step is clean. -/
theorem everyStepKeepsAppliedClean : Obligations.EveryStepKeepsAppliedClean := by
  intro s t hclean h v hv
  have hshrinks := step_shrinksTo h
  have hold : ∀ w ∈ s.pending, ∀ q ∈ w.applied, t.CleanAt w.record q := fun w hw q hq =>
    hshrinks.cleanAt (hclean w hw q hq)
  cases step_pending h v hv with
  | old hv => exact hold v hv
  | applied q hw _ hq => exact List.forall_mem_cons.2 ⟨hq, hold _ hw⟩
  | issued p r _ _ hq => exact hq

theorem peWf_reset (p : PEId) : peWf resetConfig (PE.reset p) = true :=
  (peWf_iff ..).2 ⟨rfl, rfl, by simp [PE.reset], List.nodup_dedup _⟩

theorem accessWf_of_mem_resetInFlight {a : Access} (h : a ∈ resetInFlight) : accessWf State.reset a = true := by
  obtain ⟨b, hb, rfl⟩ := List.mem_map.1 h
  have hpe : b.pe < 2 := by simpa using (List.mem_filter.1 hb).2
  simp [accessWf, State.reset, hpe]

/-- Settles O41: nothing is pending, and the free TLBs and accesses are filtered to well-formed ones. -/
theorem resetMeetsTheInvariants : Obligations.ResetMeetsTheInvariants := by
  have hnone : ∀ v, v ∉ State.reset.pending := fun _ => List.not_mem_nil
  have hpes : ∀ pe ∈ State.reset.pes, peWf resetConfig pe = true :=
    List.forall_mem_cons.2 ⟨peWf_reset 0, List.forall_mem_singleton.2 (peWf_reset 1)⟩
  have hwf : State.reset.wf = true := (State.wf_iff _).2
    ⟨by decide, hpes, State.reset_mem_wf, fun v hv => absurd hv (hnone v), fun _ => accessWf_of_mem_resetInFlight⟩
  exact ⟨hwf, fun v hv => absurd hv (hnone v), rfl⟩

/-- What every run does but to `Pending`, the turn and the counter. -/
theorem Reaches.shrinksTo {s t : State} (h : Reaches s t) : s.ShrinksTo t :=
  h.invariant (P := s.ShrinksTo) (fun _ _ hst hstep => hst.trans (step_shrinksTo hstep)) (.refl s)

/-- Settles O42: shrinking is reflexive and transitive, and every step shrinks the machine. -/
theorem runsOnlyShrinkTlbsAndMovePcs : Obligations.RunsOnlyShrinkTlbsAndMovePcs := by
  intro s t h
  have hshrinks := h.shrinksTo
  refine ⟨hshrinks.cfg, hshrinks.mem, hshrinks.length, hshrinks.inFlight, fun q pq pq' hpq hpq' => ?_⟩
  obtain ⟨a, ha, hsh⟩ := hshrinks.pes q pq' hpq'
  obtain rfl : a = pq := by simpa [hpq, eq_comm] using ha
  exact ⟨hsh.same, hsh.tlb⟩

end Sys2Proof.Machine

/-! ## Proofs: the invalidation agent's turns

One rule per kind of turn that is not a PE's (`step_apply`, `step_complete`, `step_accessDone`) and one per answer of the
agent's two steps: enabled, or not. -/

namespace Sys2Proof.Machine

section
variable {s : State} {i : Nat}

theorem step_apply {q : PEId} (h : s.turn = .apply i q) : step s = .next (applyStep i q s).nextTurn := by
  simp only [step, h]

theorem step_complete (h : s.turn = .complete i) : step s = .next (completeStep i s).nextTurn := by
  simp only [step, h]

theorem step_accessDone {j : Nat} (h : s.turn = .accessDone j) : step s = .next (accessDoneStep j s).nextTurn := by
  simp only [step, h]

/-- A turn of a PE that does not exist changes nothing (log 9). -/
theorem step_execute_absent {p : PEId} (h : s.turn = .execute p) (hp : s.pes[p]? = none) :
    step s = .next s.nextTurn := by
  simp only [step, h, hp]

theorem applyStep_enabled {q : PEId} {v : Invalidation} (hv : s.pending[i]? = some v) (hq : canApply s v q = true) :
    applyStep i q s = (applyTo v.record s q).setPending (s.pending.set i { v with applied := q :: v.applied }) := by
  simp only [applyStep, hv, hq, if_true]

theorem applyStep_disabled {q : PEId} (h : ∀ v, s.pending[i]? = some v → canApply s v q = false) :
    applyStep i q s = s := by
  rcases applyStep_cases i q s with h' | ⟨v, hv, hq, -⟩
  · exact h'
  · simp [h v hv] at hq

theorem completeStep_enabled {v : Invalidation} (hv : s.pending[i]? = some v) (hc : canComplete s v = true) :
    completeStep i s = s.setPending (s.pending.eraseIdx i) := by
  simp only [completeStep, hv, hc, if_true]

theorem completeStep_disabled (h : ∀ v, s.pending[i]? = some v → canComplete s v = false) : completeStep i s = s := by
  rcases completeStep_cases i s with h' | ⟨v, hv, hc, -⟩
  · exact h'
  · simp [h v hv] at hc

end

/-- Settles O27: the turn is enabled, and `applyTo` does what the claim says to each PE. -/
theorem applyStepRemovesTheRequired : Obligations.ApplyStepRemovesTheRequired := by
  intro s i q v pe hturn hv hscope hnew hpe
  have hstep := step_apply hturn
  rw [applyStep_enabled hv ((canApply_iff ..).2 ⟨hscope, hnew⟩)] at hstep
  refine ⟨_, pe.setTlb (invalidateTlb s.cfg v.record (Config.freeKeeps s.tick q) pe.tlb), hstep, rfl, ?_, rfl,
    fun _ => mem_invalidateTlb, fun q' hne => ?_, rfl, rfl, rfl⟩
  · show (applyTo v.record s q).pes[q]? = _
    rw [applyTo_getElem?, hpe, Option.map_some, if_pos rfl]
  · exact State.modifyPE_getElem?_of_ne s hne.symm _

/-- Settles O43: the table's row, or none, with the PE itself put in front. -/
theorem scopeIsTheIssuerOrItsDomain : Obligations.ScopeIsTheIssuerOrItsDomain := by
  intro s p q
  refine ⟨by simp [scope], ?_⟩
  cases h : s.cfg.innerShareable[p]? <;> simp [scope, innerShareable, h, and_comm]

/-- Settles O28: an apply turn that does anything does it to a PE of the scope, which is the issuer alone. -/
theorem nonShareableReachesTheIssuerOnly : Obligations.NonShareableReachesTheIssuerOnly := by
  intro s t i q q' v hturn hv hnsh h hne
  obtain rfl : (applyStep i q s).nextTurn = t := by simpa [step_apply hturn] using h
  rcases applyStep_cases i q s with h' | ⟨w, hw, hq, h'⟩ <;> rw [h']
  · rfl
  · obtain rfl : w = v := by simpa [hv, eq_comm] using hw
    have hqi : q = w.issuer := by simpa [hnsh, scope] using ((canApply_iff ..).1 hq).1
    exact State.modifyPE_getElem?_of_ne s (hqi ▸ hne.symm) _

/-- What lets an invalidation complete, the accesses it waits for written out (40_tlbip_operation.md R81, R82, R86). -/
theorem canComplete_of_applied_exactly {s : State} {v : Invalidation}
    (happlied : ∀ q, q ∈ v.applied ↔ q ∈ scope s v.issuer v.record.shareability)
    (hfree : ∀ a ∈ s.inFlight, holdsUp s v a = false) : canComplete s v = true :=
  (canComplete_iff s v).2 ⟨fun q => (happlied q).2, fun q => (happlied q).1, hfree⟩

/-- `TLBI_AllAttr` waits whatever `xs` is, `TLBI_ExcludeXS` for `xs` 0 only. -/
theorem allAttr_or_iff (a : TlbiAttr) (P : Prop) : (a = .allAttr ∨ P) ↔ (a = .excludeXS → P) := by
  cases a <;> simp

/-- Settles O31: the turn is enabled. -/
theorem completionHappensWhenAllowed : Obligations.CompletionHappensWhenAllowed := by
  intro s i v hturn hv happlied hfree
  have hcan := canComplete_of_applied_exactly happlied fun a ha => (holdsUp_eq_false_iff s v a).2 fun hpe hattr =>
    fun ⟨e, he, hreq⟩ => by simp [hfree a ha hpe ((allAttr_or_iff ..).1 hattr) e he] at hreq
  refine ⟨_, step_complete hturn, ?_⟩
  rw [completeStep_enabled hv hcan]
  exact ⟨rfl, rfl, rfl, rfl, rfl⟩

/-- Settles O32: the completion was enabled, so every TLB of the scope had been applied to and no access is left to wait
for; the turn touches neither TLBs nor accesses. -/
theorem nothingRequiredIsLeftAfterCompletion : Obligations.NothingRequiredIsLeftAfterCompletion := by
  intro s t i v hclean hturn hv h hne
  obtain ⟨happlied, -, hfree⟩ := (canComplete_iff s v).1 (canComplete_of_step_pending_ne hturn hv h hne)
  have hshrinks := step_shrinksTo h
  refine ⟨fun q hq => hshrinks.cleanAt (hclean v (List.mem_of_getElem? hv) q (happlied q hq)), ?_⟩
  intro a ha hpe hattr e he
  rw [hshrinks.cfg]
  by_contra hreq
  exact (holdsUp_eq_false_iff s v a).1 (hfree a (hshrinks.inFlight.subset ha)) hpe hattr
    ⟨e, he, Bool.eq_true_of_not_eq_false hreq⟩

/-- An access that the nXS form waits for, the plain form waits for as well (R82). -/
theorem holdsUp_with_excludeXS (s : State) (v : Invalidation) (a : Access) (h : holdsUp s v a = false)
    (hattr : v.record.attr = .allAttr) :
    holdsUp s { v with record := { v.record with attr := .excludeXS } } a = false :=
  (holdsUp_eq_false_iff ..).2 fun hpe _ => (holdsUp_eq_false_iff s v a).1 h hpe (.inl hattr)

/-- Settles O33: scope and applied PEs are the same, and the nXS form waits for no other access. -/
theorem plainCompletionImpliesNxsCompletion : Obligations.PlainCompletionImpliesNxsCompletion := by
  intro s v hattr h
  obtain ⟨hscope, happlied, hfree⟩ := (canComplete_iff s v).1 h
  exact (canComplete_iff ..).2 ⟨hscope, happlied, fun a ha => holdsUp_with_excludeXS s v a (hfree a ha) hattr⟩

/-- Settles O34: the turn takes out the access at that place, which is between the two parts. -/
theorem completedAccessLeavesInFlight : Obligations.CompletedAccessLeavesInFlight := by
  intro s j pre post a hturn hsplit hlength
  refine ⟨_, step_accessDone hturn, ?_, rfl, rfl, rfl, rfl⟩
  subst hlength
  simp [accessDoneStep, hsplit, List.eraseIdx_append_of_length_le]

/-- Settles O35: in each of the four kinds of turn the step is not enabled. -/
theorem turnsNotEnabledChangeNothing : Obligations.TurnsNotEnabledChangeNothing := by
  rintro s (⟨p, hturn, hp⟩ | ⟨i, q, hturn, hno⟩ | ⟨i, hturn, hno⟩ | ⟨j, hturn, hj⟩)
  · exact step_execute_absent hturn (List.getElem?_eq_none hp)
  · rw [step_apply hturn, applyStep_disabled fun v hv => ?_]
    · rfl
    · rw [← Bool.not_eq_true, canApply_iff, not_and_or, not_not]
      exact hno v hv
  · rw [step_complete hturn, completeStep_disabled fun v hv => ?_]
    · rfl
    · rw [← Bool.not_eq_true]
      intro hcan
      obtain ⟨hscope, -, hfree⟩ := (canComplete_iff s v).1 hcan
      rcases hno v hv with ⟨q, hq, hnot⟩ | ⟨a, ha, hpe, hattr, hreq⟩
      · exact hnot (hscope q hq)
      · exact (holdsUp_eq_false_iff s v a).1 (hfree a ha) hpe hattr hreq
  · rw [step_accessDone hturn, accessDoneStep, List.eraseIdx_of_length_le hj]
    rfl

end Sys2Proof.Machine

/-! ## Proofs: which entries must go

The address test is arithmetic on the ends of an interval; `intervalMeets_iff` says that it finds an address that
matches wherever there is one. The policy `ignore` is a matter of fields: each requirement reads the operand through
fields that `operandRead` leaves as they are, so `required_eq` speaks of the operand itself. -/

namespace Sys2Proof.Machine

/-! ### The address test -/

/-- Agreeing on bits [55:12+k] is agreeing on a quotient (40_tlbip_operation.md R73). -/
theorem agree_iff_div_eq (k : Nat) (a : Addr) (va : BitVec 44) :
    (∀ j, k ≤ j → j < 44 → a.getLsbD (j + 12) = va.getLsbD j) ↔
      a.toNat % 2 ^ 56 / 2 ^ (12 + k) = va.toNat / 2 ^ k := by
  have hbit : ∀ i, (a.toNat % 2 ^ 56 / 2 ^ (12 + k)).testBit i = (va.toNat / 2 ^ k).testBit i ↔
      (i + k < 44 → a.getLsbD (i + k + 12) = va.getLsbD (i + k)) := by
    intro i
    rw [Nat.testBit_div_two_pow, Nat.testBit_mod_two_pow, Nat.testBit_div_two_pow, BitVec.testBit_toNat,
      BitVec.testBit_toNat, show i + (12 + k) = i + k + 12 by omega]
    by_cases hi : i + k < 44
    · simp [hi, show i + k + 12 < 56 by omega]
    · simp [hi, show ¬ i + k + 12 < 56 by omega, BitVec.getLsbD_of_ge va (i + k) (by omega)]
  constructor
  · exact fun h => Nat.eq_of_testBit_eq fun i => (hbit i).2 (h (i + k) (by omega))
  · intro h j hkj hj
    have := (hbit (j - k)).1 (by rw [h])
    rw [Nat.sub_add_cancel hkj] at this
    exact this hj

/-- The least address from `lo` on that lies in `[first, last]` modulo `2 ^ 56` is the candidate of `intervalMeets`; it
does for the interval what any other would. -/
theorem candidate_le_iff {first last lo hi : Nat} (hfirst : first ≤ last) (hlast : last < 2 ^ 56) :
    (if lo % 2 ^ 56 ≤ last then lo - lo % 2 ^ 56 + max (lo % 2 ^ 56) first
      else lo - lo % 2 ^ 56 + 2 ^ 56 + first) ≤ hi ↔
      ∃ a, lo ≤ a ∧ a ≤ hi ∧ first ≤ a % 2 ^ 56 ∧ a % 2 ^ 56 ≤ last := by
  constructor
  · intro h
    refine ⟨_, ?_, h, ?_, ?_⟩ <;> split <;> omega
  · rintro ⟨a, hlo, hhi, h1, h2⟩
    split <;> omega

/-- The computed test finds an address of the interval whose bits [55:12+k] are the operand's, if there is one. -/
theorem intervalMeets_iff {k : Nat} (hk : k ≤ 44) (va : BitVec 44) (r : AddrInterval) :
    intervalMeets k va r = true ↔
      ∃ a : Addr, (r.lo ≤ a ∧ a ≤ r.hi) ∧ ∀ j, k ≤ j → j < 44 → a.getLsbD (j + 12) = va.getLsbD j := by
  have hunit : 0 < 2 ^ (12 + k) := by positivity
  have hv : va.toNat / 2 ^ k < 2 ^ (44 - k) := by
    rw [Nat.div_lt_iff_lt_mul (by positivity), ← pow_add, Nat.sub_add_cancel hk]
    exact va.isLt
  have hlast : va.toNat / 2 ^ k * 2 ^ (12 + k) + 2 ^ (12 + k) - 1 < 2 ^ 56 := by
    have h56 : 2 ^ (44 - k) * 2 ^ (12 + k) = 2 ^ 56 := by rw [← pow_add]; congr 1; omega
    have := Nat.mul_le_mul_right (2 ^ (12 + k)) (Nat.succ_le_of_lt hv)
    rw [h56, Nat.succ_mul] at this
    omega
  simp only [intervalMeets, decide_eq_true_eq]
  rw [candidate_le_iff (by omega) hlast]
  simp only [agree_iff_div_eq k, Nat.div_eq_iff hunit, BitVec.le_def]
  constructor
  · rintro ⟨a, hlo, hhi, h⟩
    have ha : a < 2 ^ 64 := by have := r.hi.isLt; omega
    exact ⟨BitVec.ofNatLT a ha, ⟨hlo, hhi⟩, h⟩
  · rintro ⟨a, ⟨hlo, hhi⟩, h⟩
    exact ⟨a.toNat, hlo, hhi, h⟩

theorem ignoredVABits_eq (g : Granule) : ignoredVABits g = Claims.lowestComparedVABit g := by cases g <;> rfl

theorem ignoredVABits_le (g : Granule) : ignoredVABits g ≤ 44 := by cases g <;> decide

/-- Settles O10: interval by interval. -/
theorem coversVAIsAnAddressOfTheRange : Obligations.CoversVAIsAnAddressOfTheRange := by
  intro op e
  rw [coversVA, List.any_eq_true]
  simp only [intervalMeets_iff (ignoredVABits_le e.granule)]
  rw [ignoredVABits_eq]
  constructor
  · rintro ⟨i, hi, a, ha, hbits⟩
    exact ⟨a, ⟨i, hi, ha⟩, hbits⟩
  · rintro ⟨a, ⟨i, hi, ha⟩, hbits⟩
    exact ⟨i, hi, a, ha, hbits⟩

/-- Bits of the VA field below those compared have no effect (40_tlbip_operation.md R63). -/
theorem coversVA_congr {op op' : Operand} {e : TlbEntry}
    (h : ∀ j, Claims.lowestComparedVABit e.granule ≤ j → j < 44 → (opVA op').getLsbD j = (opVA op).getLsbD j) :
    coversVA op' e = coversVA op e := by
  rw [Bool.eq_iff_iff, coversVAIsAnAddressOfTheRange, coversVAIsAnAddressOfTheRange]
  refine exists_congr fun a => and_congr_right fun _ => forall_congr' fun j => ?_
  exact forall_congr' fun hlow => forall_congr' fun hj => by rw [h j hlow hj]

/-! ### The operand with its RES0 bits read as zero -/

section
variable (h : BitVec 20) (va : BitVec 44) (asid : BitVec 16) (ttl : BitVec 4) (l : BitVec 44)

theorem opVA_append : opVA (h ++ va ++ asid ++ ttl ++ l) = va := by
  unfold opVA
  ext i hi
  grind

theorem opASID_append : opASID (h ++ va ++ asid ++ ttl ++ l) = asid := by
  unfold opASID
  ext i hi
  grind

theorem opTTL_append : opTTL (h ++ va ++ asid ++ ttl ++ l) = ttl := by
  unfold opTTL
  ext i hi
  grind

end

@[simp] theorem opVA_operandRead (c : Config) (op : Operand) : opVA (operandRead c op) = opVA op := by
  unfold operandRead
  split
  · rfl
  · exact opVA_append ..

@[simp] theorem opASID_operandRead (c : Config) (op : Operand) : opASID (operandRead c op) = opASID op := by
  unfold operandRead
  split
  · rfl
  · exact opASID_append ..

theorem opTTL_operandRead (c : Config) (op : Operand) :
    opTTL (operandRead c op) = opTTL op ∨ opTTL (operandRead c op) = ttlRes0AsZero c (opTTL op) := by
  unfold operandRead
  split
  · exact .inl rfl
  · exact .inr (opTTL_append ..)

/-- Where TTL has a meaning its high half is read as written; a high half of `00` names nothing, whatever the low half
(40_tlbip_operation.md R67). -/
theorem ttlNames_of_ttlHigh_eq_zero :
    ∀ (lpa2 : Bool) (ttl : BitVec 4), ttlHigh ttl = 0b00#2 → ttlNames lpa2 ttl = none := by
  decide

@[simp] theorem rawTTLHigh_operandRead (c : Config) (op : Operand) : rawTTLHigh c (operandRead c op) = rawTTLHigh c op := by
  unfold rawTTLHigh
  split
  · next hf =>
    rcases opTTL_operandRead c op with h | h <;> rw [h]
    rw [ttlRes0AsZero, if_pos hf]
    split
    · next hz => rw [hz]; rfl
    · rfl
  · rfl

@[simp] theorem effTTL_operandRead (c : Config) (op : Operand) : effTTL c (operandRead c op) = effTTL c op := by
  unfold effTTL
  split
  · next hf =>
    rcases opTTL_operandRead c op with h | h <;> rw [h]
    rw [ttlRes0AsZero, if_pos hf]
    split
    · next hz => rw [ttlNames_of_ttlHigh_eq_zero _ _ hz, ttlNames_of_ttlHigh_eq_zero _ _ rfl]
    · rfl
  · rfl

/-! ### The requirements, each by the field it reads -/

theorem sizeStage_congr {c : Config} {op op' : Operand} (h : rawTTLHigh c op' = rawTTLHigh c op) (e : TlbEntry) :
    sizeStage c op' e = sizeStage c op e := by
  simp only [sizeStage, h]

theorem levelAsid_congr {op op' : Operand} (h : opASID op' = opASID op) (e : TlbEntry) :
    levelAsid op' e = levelAsid op e := by
  simp only [levelAsid, h]

theorem ttlAdmits_congr {c : Config} {op op' : Operand} (h : effTTL c op' = effTTL c op) (e : TlbEntry) :
    ttlAdmits c op' e = ttlAdmits c op e := by
  simp only [ttlAdmits, h]

/-- The policy `ignore` is in the first requirement alone: the others read nothing of the RES0 bits. -/
theorem required_eq (c : Config) (r : TlbiRecord) (e : TlbEntry) :
    required c r e = ((c.res0Policy == .ignore || operandWellFormed c r.op) && sizeStage c r.op e && coversVA r.op e
      && levelAsid r.op e && regimeMatch r e && ttlAdmits c r.op e) := by
  rw [required, sizeStage_congr (rawTTLHigh_operandRead c r.op), coversVA_congr (op := r.op) fun _ _ _ => by
    rw [opVA_operandRead], levelAsid_congr (opASID_operandRead c r.op), ttlAdmits_congr (effTTL_operandRead c r.op)]

theorem operandWellFormed_iff (c : Config) (op : Operand) :
    operandWellFormed c op = true ↔
      opRes0High op = 0#20 ∧ opRes0Low op = 0#44 ∧ (c.featTTL = false → opTTL op = 0#4) ∧
        (c.featTTL = true → ttlHigh (opTTL op) = 0#2 → ttlLow (opTTL op) = 0#2) := by
  cases h : c.featTTL <;> simp [operandWellFormed, h, and_assoc, or_iff_not_imp_left]

theorem sizeStage_iff (c : Config) (op : Operand) (e : TlbEntry) :
    sizeStage c op e = true ↔
      e.stage1 = true ∧ (e.combined = true → c.combinedS1S2Required = true) ∧
        (e.descBits = .bits128 ∨ (c.featTTL = true → ttlHigh (opTTL op) = 0#2)) := by
  cases hf : c.featTTL <;> cases hd : e.descBits <;> simp [sizeStage, rawTTLHigh, hf, hd, and_assoc, imp_iff_not_or]

theorem levelAsid_iff (op : Operand) (e : TlbEntry) :
    levelAsid op e = true ↔ (e.final = true ∧ e.global = true) ∨ e.asid = opASID op := by
  cases hf : e.final <;> cases hg : e.global <;> simp [levelAsid, hf, hg]

theorem regimeMatch_iff (r : TlbiRecord) (e : TlbEntry) :
    regimeMatch r e = true ↔
      e.regime = r.regime ∧ e.secstate = r.security ∧ (r.vmid = .vmidNone ∨ e.vmid = r.vmid) := by
  simp [regimeMatch, and_assoc]

/-- The table of 40_tlbip_operation.md R67 is the formula of the claim. -/
theorem ttlNames_eq_some_iff (lpa2 : Bool) (ttl : BitVec 4) (g : Granule) (l : Int) :
    ttlNames lpa2 ttl = some (g, l) ↔ Claims.TtlNames lpa2 ttl g l := by
  obtain ⟨i⟩ := ttl
  fin_cases i <;> cases lpa2 <;> simp [ttlNames, Claims.TtlNames, eq_comm, and_comm]

theorem ttlAdmits_iff (c : Config) (op : Operand) (e : TlbEntry) :
    ttlAdmits c op e = true ↔
      (c.featTTL = true → ∀ g l, Claims.TtlNames c.featLPA2 (opTTL op) g l →
        e.granule = g ∧ (e.final = true → e.level = l) ∧
          (e.final = false → e.level < l ∧ c.ttlNonLeafRequired = true)) := by
  simp only [ttlAdmits, effTTL, ← ttlNames_eq_some_iff]
  cases c.featTTL with
  | false => simp
  | true =>
    cases ttlNames c.featLPA2 (opTTL op) with
    | none => simp
    | some gl =>
      obtain ⟨g, l⟩ := gl
      cases e.final <;> simp

/-- Settles O11: `required_eq`, and each requirement in elementary terms. -/
theorem requiredIsEveryRequirement : Obligations.RequiredIsEveryRequirement := by
  intro c r e
  have hpolicy : (c.res0Policy = .ignore ∨ operandWellFormed c r.op = true) ↔
      (c.res0Policy = .nothingRequired → operandWellFormed c r.op = true) := by
    cases c.res0Policy <;> simp
  rw [required_eq]
  simp only [Bool.and_eq_true, Bool.or_eq_true, beq_iff_eq, hpolicy]
  simp only [operandWellFormed_iff, sizeStage_iff, coversVAIsAnAddressOfTheRange r.op e, levelAsid_iff,
    regimeMatch_iff, ttlAdmits_iff, and_assoc]
  rfl

/-! ### What the operand's fields decide -/

/-- Records alike but for the operand require the same entries to go when every field that is read is the same. -/
theorem required_with_op_congr {c : Config} {r : TlbiRecord} {op' : Operand} {e : TlbEntry}
    (hwf : c.res0Policy = .ignore ∨ operandWellFormed c op' = operandWellFormed c r.op)
    (hva : coversVA op' e = coversVA r.op e) (hasid : opASID op' = opASID r.op)
    (hraw : rawTTLHigh c op' = rawTTLHigh c r.op) (heff : effTTL c op' = effTTL c r.op) :
    required c { r with op := op' } e = required c r e := by
  have hpolicy : (c.res0Policy == .ignore || operandWellFormed c op') =
      (c.res0Policy == .ignore || operandWellFormed c r.op) := by
    rcases hwf with h | h <;> simp [h]
  simp only [required_eq, hpolicy, sizeStage_congr hraw, hva, levelAsid_congr hasid, ttlAdmits_congr heff]
  rfl

/-- Settles O12: below bit 64 and above the ignored bits of the VA field the operands are the same. -/
theorem granuleIgnoresLowVABits : Obligations.GranuleIgnoresLowVABits := by
  intro c r r' e hgranule hlow hr
  obtain ⟨b, hb, hb', hhigh⟩ : ∃ b, Claims.lowestComparedVABit e.granule = b ∧ b ≤ 4 ∧
      ∀ j, 64 + b ≤ j → r'.op.getLsbD j = r.op.getLsbD j := by
    rcases hgranule with ⟨hg, h⟩ | ⟨hg, h⟩ <;> exact ⟨_, rfl, by rw [hg]; decide, by rwa [hg]⟩
  have hcut : ∀ start len, start + len ≤ 64 ∨ 68 ≤ start → r'.op.extractLsb' start len = r.op.extractLsb' start len := by
    intro start len h
    ext i hi
    simp only [BitVec.getElem_extractLsb']
    rcases h with h | h
    · exact hlow _ (by omega)
    · exact hhigh _ (by omega)
  have hasid : opASID r'.op = opASID r.op := hcut _ _ (.inl (by decide))
  have httl : opTTL r'.op = opTTL r.op := hcut _ _ (.inl (by decide))
  have hres0Low : opRes0Low r'.op = opRes0Low r.op := hcut _ _ (.inl (by decide))
  have hres0High : opRes0High r'.op = opRes0High r.op := hcut _ _ (.inr (by decide))
  have hva : coversVA r'.op e = coversVA r.op e := coversVA_congr fun j hj hj' => by
    simp only [opVA, BitVec.getLsbD_extractLsb', hhigh (64 + j) (by omega)]
  rw [hr]
  refine required_with_op_congr (.inr ?_) hva hasid ?_ ?_
  · simp only [operandWellFormed, hres0High, hres0Low, httl]
  · simp only [rawTTLHigh, httl]
  · simp only [effTTL, httl]

/-- Settles O13: the policy takes the first requirement away, and the others read VA, ASID and TTL's meaning only. -/
theorem ignorePolicyDisregardsReservedBits : Obligations.IgnorePolicyDisregardsReservedBits := by
  intro c r r' e hpolicy hr hva hasid httl
  rw [hr]
  refine required_with_op_congr (.inl hpolicy) (coversVA_congr fun _ _ _ => by rw [hva]) hasid ?_ ?_
  · unfold rawTTLHigh
    split
    · next hf =>
      rcases httl hf with h | ⟨h', h⟩
      · rw [h]
      · rw [h, h']
    · rfl
  · unfold effTTL
    split
    · next hf =>
      rcases httl hf with h | ⟨h', h⟩
      · rw [h]
      · rw [ttlNames_of_ttlHigh_eq_zero _ _ h, ttlNames_of_ttlHigh_eq_zero _ _ h']
    · rfl

/-- Settles O14: such an entry is matched by its ASID, whose upper byte is zero where a TLB can hold it. -/
theorem upperAsidByteMatchesNoNonGlobalEntry : Obligations.UpperAsidByteMatchesNoNonGlobalEntry := by
  intro c r e hbits hwf hglobal hupper
  by_contra hreq
  simp only [Bool.not_eq_false, required_eq, Bool.and_eq_true, and_assoc] at hreq
  obtain ⟨-, -, -, hlevel, -⟩ := hreq
  have hasid : e.asid = opASID r.op := ((levelAsid_iff ..).1 hlevel).resolve_left hglobal
  have hzero : e.asid.extractLsb' 8 8 = 0#8 := by
    simpa [hbits] using (Bool.and_eq_true_iff.1 hwf).2
  exact hupper (hasid ▸ hzero)

/-- Settles O44: by `upperAsidByteMatchesNoNonGlobalEntry` none of the entries in use is required to go, so no access
holds the completion up. -/
theorem upperAsidByteIsNotHeldUpByNonGlobalEntries : Obligations.UpperAsidByteIsNotHeldUpByNonGlobalEntries := by
  intro s i v hwf hbits hupper hturn hv happlied hglobal
  obtain ⟨-, -, -, -, hinFlight⟩ := (State.wf_iff s).1 hwf
  have hfree : ∀ a ∈ s.inFlight, holdsUp s v a = false := fun a ha =>
    (holdsUp_eq_false_iff s v a).2 fun _ _ ⟨e, he, hreq⟩ => by
      have hused : ∀ e ∈ a.used, entryWf s.cfg e = true := by
        simpa using (Bool.and_eq_true_iff.1 (hinFlight a ha)).2
      have hno := upperAsidByteMatchesNoNonGlobalEntry s.cfg v.record e hbits (hused e he) (hglobal a ha e he) hupper
      exact absurd hreq (by simp [hno])
  refine ⟨_, step_complete hturn, ?_⟩
  rw [completeStep_enabled hv (canComplete_of_applied_exactly happlied hfree)]
  rfl

end Sys2Proof.Machine

/-! ## Proofs: what the instructions issue and leave alone

A completed execution has one form, `exec_next_of_executes`: the conditions of `exec_eq_next`, and the state that issuing
`issuedRecord` leads to. What that state is, whole, is `issued_issueAndAdvance`; what a change of the state before does
to it is said by the `issueAndAdvance_…` lemmas. -/

namespace Sys2Proof.Machine

/-! ### The operand and the registers -/

/-- A cut of the low half of the operand is one of `x[t]`. -/
theorem extractLsb'_operandOf_low (pe : PE) (t t2 : Reg) {start len : Nat} (h : start + len ≤ 64) :
    (operandOf pe t t2).extractLsb' start len = (pe.readX t).extractLsb' start len :=
  BitVec.extractLsb'_append_eq_of_add_le h

/-- A cut of the high half of the operand is one of `x[t2]`. -/
theorem extractLsb'_operandOf_high (pe : PE) (t t2 : Reg) {start len : Nat} (h : 64 ≤ start) :
    (operandOf pe t t2).extractLsb' start len = (pe.readX t2).extractLsb' (start - 64) len :=
  BitVec.extractLsb'_append_eq_of_le h

/-- Settles O7: `op[127:64]` is `x[t2]`, `op[63:0]` is `x[t]`, and no field crosses from one to the other. -/
theorem operandFieldsComeFromTheRegisters : Obligations.OperandFieldsComeFromTheRegisters := fun pe t t2 =>
  ⟨extractLsb'_operandOf_high pe t t2 (by decide), extractLsb'_operandOf_high pe t t2 (by decide),
    extractLsb'_operandOf_low pe t t2 (by decide), extractLsb'_operandOf_low pe t t2 (by decide),
    extractLsb'_operandOf_low pe t t2 (by decide)⟩

/-- A write to a register moves the registers only. -/
theorem PE.writeX_eq (pe : PE) (j : Reg) (v : DWord) : pe.writeX j v = { pe with x := (pe.writeX j v).x } := by
  unfold PE.writeX
  split <;> rfl

theorem PE.writeX_setTlb (pe : PE) (j : Reg) (v : DWord) (l : List TlbEntry) :
    (pe.setTlb l).writeX j v = (pe.writeX j v).setTlb l := by
  unfold PE.writeX
  split <;> rfl

theorem PE.writeX_advancePc (pe : PE) (j : Reg) (v : DWord) : pe.advancePc.writeX j v = (pe.writeX j v).advancePc := by
  unfold PE.writeX
  split <;> rfl

@[simp] theorem PE.writeX_tlb (pe : PE) (j : Reg) (v : DWord) : (pe.writeX j v).tlb = pe.tlb := by
  rw [PE.writeX_eq]

/-- A register that is not read does not matter, register 31 never does. -/
theorem operandOf_writeX (pe : PE) (t t2 j : Reg) (v : DWord) (h : (j ≠ t ∧ j ≠ t2) ∨ j = 31#5) :
    operandOf (pe.writeX j v) t t2 = operandOf pe t t2 := by
  have hread : ∀ i, (j ≠ i ∨ j = 31#5) → (pe.writeX j v).readX i = pe.readX i := fun i hi => by
    rw [PE.readX_writeX, if_neg]
    rintro ⟨rfl, hne⟩
    exact hi.elim (fun hi => hi rfl) hne
  rw [operandOf, operandOf, hread t (h.imp_left And.left), hread t2 (h.imp_left And.right)]

/-! ### The states of a completed execution -/

theorem executes_modifyPE {s : State} {p : PEId} {pe : PE} (h : Claims.Executes s p pe) (f : PE → PE) :
    Claims.Executes (s.modifyPE p f) p (f pe) :=
  ⟨h.1, by rw [State.modifyPE_getElem?_self, h.2]; rfl⟩

/-- A completed execution met none of the stops, and issued `issuedRecord`. -/
theorem exec_next_of_executes {i : Instr} {s u : State} {p : PEId} {pe : PE} (hexec : Claims.Executes s p pe)
    (h : exec i s = .next u) :
    Claims.Present s.cfg i ∧ pe.el ≠ .el0 ∧ ¬ (pe.el = .el1 ∧ Claims.TrapsFromEl1 s.cfg pe i) ∧
      u = issueAndAdvance p
        (issuedRecord s.cfg pe (issuedAttr s.cfg pe i.variant) (operandOf pe i.rt i.rt2)) s := by
  have hdefined : ¬ (¬ Claims.Present s.cfg i ∨ pe.el = .el0) := fun hu => by
    simp [exec_eq_undefined hexec hu] at h
  obtain ⟨hpres, hel0⟩ := not_or.1 hdefined
  have htrap : ¬ (pe.el = .el1 ∧ Claims.TrapsFromEl1 s.cfg pe i) := fun ht => by
    simp [exec_eq_trap hexec (not_not.1 hpres) ht.1 ht.2] at h
  rw [exec_eq_next hexec (not_not.1 hpres) hel0 htrap] at h
  exact ⟨not_not.1 hpres, hel0, htrap, by injection h with h; exact h.symm⟩

/-- An execution that completes or faults has an executing PE. -/
theorem exec_eq_refused {i : Instr} {s : State} (h : s.executing = none) :
    exec i s = .refused .noExecutingPE := by
  cases i <;> simp [exec, execTlbipVae1, execTlbipVae1nxs, whenExecuting, h]

/-- The whole state after an issue, as the claims say it (40_tlbip_operation.md R84, R86, 41_tlbip_vae1.md R93). -/
theorem issued_issueAndAdvance (s : State) (p : PEId) (r : TlbiRecord) :
    Claims.Issued s p r (issueAndAdvance p r s) := by
  obtain ⟨-, hlength, hpes⟩ := issueAndAdvance_spec p r s
  refine ⟨issueAndAdvance_pending p r s, issueAndAdvance_cfg p r s, issueAndAdvance_mem p r s,
    issueAndAdvance_inFlight p r s, issueAndAdvance_turn p r s, issueAndAdvance_tick p r s, hlength, fun q pq hq => ?_⟩
  have happlied := mem_appliedAtIssue_iff s p q r
  have htlb : ∀ pe : PE, (if p = q then pe.advancePc else pe).tlb = pe.tlb := fun pe => by split <;> rfl
  refine ⟨_, by rw [hpes, hq]; rfl, ?_, fun hno => ?_, fun hatomic hscope => ?_⟩
  · by_cases hqp : p = q
    · subst hqp
      split <;> simp [PE.advancePc, PE.setPc, PE.setTlb]
    · split <;> simp [Ne.symm hqp, PE.setTlb]
  · have hnot : q ∉ appliedAtIssue s p r := by simpa [happlied, imp_iff_not_or] using hno
    rw [htlb, if_neg hnot]
  · rw [htlb, if_pos (happlied.2 ⟨hatomic, hscope⟩)]
    exact ⟨(invalidateTlb_sublist ..).subset, fun e he => (mem_invalidateTlb.1 he).2.1⟩

/-! ### The records, as the claims say them -/

theorem securityStateAtEL_eq (c : Config) (pe : PE) (el : EL) : securityStateAtEL c pe el = Claims.security c pe := by
  unfold securityStateAtEL Claims.security
  cases c.haveEL3 <;> cases c.featRME <;> rfl

theorem recordAtEL1_eq (c : Config) (pe : PE) (a : TlbiAttr) (op : Operand) :
    recordAtEL1 c pe a op =
      { security := Claims.security c pe, regime := .el10, vmid := pe.vmidReads
        shareability := if el2Enabled c pe = true ∧ pe.hcrEl2.fb = 1#1 then .ish else .nsh
        level := .any, attr := a, op := op } := by
  simp [recordAtEL1, securityStateAtEL_eq, currentVMID, shareabilityAtEL1]

theorem attrAtEL1_eq (c : Config) (pe : PE) :
    attrAtEL1 c pe = if c.featXS = true ∧ c.featHCX = true ∧ pe.hcrxEl2EnabledReads = true ∧
      pe.hcrxEl2.fnxs = 1#1 then .excludeXS else .allAttr := by
  simp [attrAtEL1, hcrxEl2Enabled, and_assoc]

theorem hcrE2HTGE_eq_iff (c : Config) (pe : PE) : hcrE2HTGE c pe = 0b11#2 ↔ Claims.HostRegime c pe := by
  have happend : ∀ a b : BitVec 1, a ++ b = 0b11#2 ↔ a = 1#1 ∧ b = 1#1 := by decide
  unfold hcrE2HTGE Claims.HostRegime
  cases c.haveEL2
  · simp
  · simpa using happend pe.hcrEl2.e2h pe.hcrEl2.tge

theorem recordAboveEL1_of_host {c : Config} {pe : PE} (h : Claims.HostRegime c pe) (a : TlbiAttr) (op : Operand) :
    recordAboveEL1 c pe a op =
      { security := Claims.security c pe, regime := .el20, vmid := .vmidNone, shareability := .nsh
        level := .any, attr := a, op := op } := by
  rw [recordAboveEL1, if_pos ((hcrE2HTGE_eq_iff ..).2 h), securityStateAtEL_eq]

theorem recordAboveEL1_of_not_host {c : Config} {pe : PE} (h : ¬ Claims.HostRegime c pe) (a : TlbiAttr) (op : Operand) :
    recordAboveEL1 c pe a op =
      { security := Claims.security c pe, regime := .el10, vmid := pe.vmidReads, shareability := .nsh
        level := .any, attr := a, op := op } := by
  rw [recordAboveEL1, if_neg (mt (hcrE2HTGE_eq_iff ..).1 h), securityStateAtEL_eq]
  rfl

@[simp] theorem issuedRecord_op (c : Config) (pe : PE) (a : TlbiAttr) (op : Operand) :
    (issuedRecord c pe a op).op = op := by
  unfold issuedRecord recordAboveEL1
  split
  · rfl
  · split <;> rfl

/-! ### The two instructions, level by level -/

section
variable {s : State} {p : PEId} {pe : PE} {i : Instr} (hexec : Claims.Executes s p pe) (hpres : Claims.Present s.cfg i)
include hexec hpres

/-- At EL1 with no trap the record is that of the EL1&0 regime. -/
theorem exec_at_el1 (hel : pe.el = .el1) (htrap : ¬ Claims.TrapsFromEl1 s.cfg pe i) :
    exec i s = .next (issueAndAdvance p
      (recordAtEL1 s.cfg pe (issuedAttr s.cfg pe i.variant) (operandOf pe i.rt i.rt2)) s) := by
  rw [exec_eq_next hexec hpres (by rw [hel]; decide) fun h => htrap h.2, issuedRecord_of_el1 hel]

/-- At EL2 and EL3 the record is that of the regime `{E2H, TGE}` selects. -/
theorem exec_above_el1 (hel : pe.el = .el2 ∨ pe.el = .el3) :
    exec i s = .next (issueAndAdvance p
      (recordAboveEL1 s.cfg pe (issuedAttr s.cfg pe i.variant) (operandOf pe i.rt i.rt2)) s) := by
  have hne := ne_el1_of_el2_or_el3 hel
  rw [exec_eq_next hexec hpres (by rcases hel with h | h <;> rw [h] <;> decide) fun h => hne h.1,
    issuedRecord_of_ne_el1 hne]

/-- The two regimes of an execution at EL2 or EL3. -/
theorem exec_above_el1_issued (hel : pe.el = .el2 ∨ pe.el = .el3) :
    ∃ u, exec i s = .next u ∧
      (Claims.HostRegime s.cfg pe → Claims.Issued s p
        { security := Claims.security s.cfg pe, regime := .el20, vmid := .vmidNone, shareability := .nsh
          level := .any, attr := issuedAttr s.cfg pe i.variant, op := operandOf pe i.rt i.rt2 } u) ∧
      (¬ Claims.HostRegime s.cfg pe → Claims.Issued s p
        { security := Claims.security s.cfg pe, regime := .el10, vmid := pe.vmidReads, shareability := .nsh
          level := .any, attr := issuedAttr s.cfg pe i.variant, op := operandOf pe i.rt i.rt2 } u) := by
  refine ⟨_, exec_above_el1 hexec hpres hel, fun h => ?_, fun h => ?_⟩
  · rw [recordAboveEL1_of_host h]
    exact issued_issueAndAdvance ..
  · rw [recordAboveEL1_of_not_host h]
    exact issued_issueAndAdvance ..

end

/-- Settles O16: the first test of the listing. -/
theorem featureAbsenceComesBeforeTheTraps : Obligations.FeatureAbsenceComesBeforeTheTraps :=
  fun _ _ _ _ hexec hpres => exec_eq_undefined hexec (.inl hpres)

/-- Settles O17: the record at EL1 with the `attr` that `FnXS` selects. -/
theorem vae1IssuesAtEl1 : Obligations.Vae1IssuesAtEl1 := by
  intro s p pe t t2 hexec hd hel htrap
  refine ⟨_, exec_at_el1 hexec hd hel htrap, ?_⟩
  rw [Instr.variant, issuedAttr_vae1_of_el1 hel, attrAtEL1_eq, recordAtEL1_eq]
  exact issued_issueAndAdvance ..

/-- Settles O18: the record at EL1 with `TLBI_ExcludeXS`. -/
theorem nxsIssuesAtEl1 : Obligations.NxsIssuesAtEl1 := by
  intro s p pe t t2 hexec hd hx hel htrap
  refine ⟨_, exec_at_el1 hexec ⟨hd, hx⟩ hel htrap, ?_⟩
  rw [recordAtEL1_eq]
  exact issued_issueAndAdvance ..

/-- Settles O19: the two regimes, with `TLBI_AllAttr`. -/
theorem vae1IssuesAboveEl1 : Obligations.Vae1IssuesAboveEl1 := by
  intro s p pe t t2 hexec hd hel
  have h := exec_above_el1_issued (i := .tlbipVae1 t t2) hexec hd hel
  rwa [Instr.variant, issuedAttr_vae1_of_ne_el1 (ne_el1_of_el2_or_el3 hel)] at h

/-- Settles O20: the two regimes, with `TLBI_ExcludeXS`. -/
theorem nxsIssuesAboveEl1 : Obligations.NxsIssuesAboveEl1 := fun _ _ _ _ _ hexec hd hx hel =>
  exec_above_el1_issued hexec ⟨hd, hx⟩ hel

/-- Settles O21: the trap condition of the one form holds; that of the other fails, at `TTLB` and at FEAT_HCX or
`FGTnXS`. -/
theorem fineGrainedTrapCanSpareTheNxsForm : Obligations.FineGrainedTrapCanSpareTheNxsForm := by
  intro s p pe t t2 hexec hd hx hfgt hel hen httlb hfgten htlbi hspared
  have hgate : s.cfg.haveEL3 = false ∨ pe.scrEl3.fgten = 1#1 := by
    cases h : s.cfg.haveEL3
    · exact .inl rfl
    · exact .inr (hfgten h)
  refine ⟨exec_eq_trap hexec hd hel ⟨hen, .inr ⟨hfgt, hgate, htlbi⟩⟩, _, exec_at_el1 hexec ⟨hd, hx⟩ hel ?_⟩
  rintro ⟨-, h | ⟨-, -, hhcx, hnxs, -⟩⟩
  · simp [httlb] at h
  · rcases hspared with h | ⟨h, h'⟩
    · simp [h] at hhcx
    · simp [h, h'] at hnxs

/-- Settles O8: both halves of the operand read register 31. -/
theorem registerThirtyOnePairGivesZeroOperand : Obligations.RegisterThirtyOnePairGivesZeroOperand := by
  intro s u i ht ht2 h
  obtain ⟨p, pe, -, rfl⟩ := exec_next_issued h
  refine ⟨_, _, _, issueAndAdvance_pending .., ?_⟩
  rw [issuedRecord_op, ht, ht2, operandOf, PE.readX_31]
  rfl

/-- Settles O22: the next state is an issue's, and an issue shrinks the machine. -/
theorem instructionsLeaveAllElseAlone : Obligations.InstructionsLeaveAllElseAlone := by
  intro i s u p pe hexec h
  obtain ⟨-, -, -, rfl⟩ := exec_next_of_executes hexec h
  generalize issuedRecord s.cfg pe _ _ = r
  have hshrinks := shrinksTo_issueAndAdvance p r s
  obtain ⟨hpending, hcfg, hmem, hinFlight, hturn, htick, hlength, hpes⟩ := issued_issueAndAdvance s p r
  refine ⟨hcfg, fun a => by rw [hmem], hmem, hinFlight, hturn, htick, hlength, fun q pq pq' hq hq' => ?_,
    r, _, hpending, fun q pq pq' hq hq' hno => ?_⟩
  · obtain ⟨a, ha, hsh⟩ := hshrinks.pes q pq' hq'
    obtain ⟨b, hb, heq, -⟩ := hpes q pq hq
    obtain rfl : a = pq := by simpa [hq, eq_comm] using ha
    obtain rfl : b = pq' := by simpa [hq', eq_comm] using hb
    exact ⟨hsh.same, fun hne => by rw [heq, if_neg hne], hsh.tlb.subset⟩
  · obtain ⟨b, hb, -, htlb, -⟩ := hpes q pq hq
    obtain rfl : b = pq' := by simpa [hq', eq_comm] using hb
    exact htlb hno

/-! ### What an issue does not depend on -/

theorem appliedAtIssue_congr {s s' : State} (hc : s'.cfg = s.cfg) (hl : s'.pes.length = s.pes.length) (p : PEId)
    {r r' : TlbiRecord} (hr : r'.shareability = r.shareability) : appliedAtIssue s' p r' = appliedAtIssue s p r := by
  simp only [appliedAtIssue, hc, hr, scope_congr hc hl]

theorem appliedAtIssue_modifyPE (s : State) (p q : PEId) (f : PE → PE) (r : TlbiRecord) :
    appliedAtIssue (s.modifyPE q f) p r = appliedAtIssue s p r :=
  appliedAtIssue_congr (s := s) (s' := s.modifyPE q f) rfl (State.modifyPE_pes_length s q f) p rfl

theorem appliedAtIssue_setMem (s : State) (p : PEId) (m : Memory) (r : TlbiRecord) :
    appliedAtIssue (s.setMem m) p r = appliedAtIssue s p r :=
  appliedAtIssue_congr (s := s) (s' := s.setMem m) rfl rfl p rfl

/-- The PEs after an issue depend on the record by its scope and its required entries only. -/
theorem issueAndAdvance_pes_congr {s : State} {p : PEId} {r r' : TlbiRecord}
    (hshare : r'.shareability = r.shareability) (hreq : ∀ e, required s.cfg r' e = required s.cfg r e) :
    (issueAndAdvance p r' s).pes = (issueAndAdvance p r s).pes :=
  List.ext_getElem? fun q => by
    simp only [(issueAndAdvance_spec p r' s).2.2, (issueAndAdvance_spec p r s).2.2,
      appliedAtIssue_congr (s := s) rfl rfl p hshare, invalidateTlb_congr hreq]

/-- Settles O45: the two records differ in `attr`, which neither the scope nor the required entries read. -/
theorem variantsLeaveTheSamePEs : Obligations.VariantsLeaveTheSamePEs := by
  intro s u u' t t2 h h'
  obtain ⟨p, pe, he, rfl⟩ := exec_next_issued h
  obtain ⟨p', pe', he', rfl⟩ := exec_next_issued h'
  obtain ⟨rfl, rfl⟩ : p = p' ∧ pe = pe' := by simpa [he] using he'
  have hshare := congrArg TlbiRecord.shareability
    (issuedRecord_eq_with_attr s.cfg pe (issuedAttr s.cfg pe .vae1) .excludeXS (operandOf pe t t2))
  refine ⟨issueAndAdvance_pes_congr hshare fun _ => required_issuedRecord .., ?_⟩
  rw [issueAndAdvance_pending, issueAndAdvance_pending, List.map_append, List.map_append]
  exact congrArg (_ ++ [·]) (appliedAtIssue_congr rfl rfl p hshare)

/-- An issue does not read memory (20_memory.md R30). -/
theorem issueAndAdvance_setMem (p : PEId) (r : TlbiRecord) (s : State) (m : Memory) :
    issueAndAdvance p r (s.setMem m) = (issueAndAdvance p r s).setMem m := by
  have hpes : (issueAndAdvance p r (s.setMem m)).pes = (issueAndAdvance p r s).pes :=
    List.ext_getElem? fun q => by
      simp only [(issueAndAdvance_spec p r (s.setMem m)).2.2, (issueAndAdvance_spec p r s).2.2,
        appliedAtIssue_setMem]
      rfl
  rw [(issueAndAdvance_spec p r (s.setMem m)).1, hpes, appliedAtIssue_setMem, (issueAndAdvance_spec p r s).1]
  rfl

/-- Settles O26: with any other memory the same of the three rules of `exec` applies. -/
theorem memoryIsNotRead : Obligations.MemoryIsNotRead := by
  intro i s u m
  cases he : s.executing with
  | none => simp [exec_eq_refused he]
  | some a =>
    obtain ⟨p, pe⟩ := a
    have hexec : Claims.Executes s p pe := (State.executing_eq_some s p pe).1 he
    have hexec' : Claims.Executes (s.setMem m) p pe := hexec
    by_cases hu : ¬ Claims.Present s.cfg i ∨ pe.el = .el0
    · simp [exec_eq_undefined hexec hu, exec_eq_undefined hexec' hu]
    obtain ⟨hpres, hel0⟩ := not_or.1 hu
    rw [not_not] at hpres
    by_cases ht : pe.el = .el1 ∧ Claims.TrapsFromEl1 s.cfg pe i
    · simp [exec_eq_trap hexec hpres ht.1 ht.2, exec_eq_trap hexec' hpres ht.1 ht.2]
    · rw [exec_eq_next hexec hpres hel0 ht, exec_eq_next hexec' hpres hel0 ht, issueAndAdvance_setMem]
      exact ⟨fun h => by injection h with h; rw [← h]; rfl, fun f h => nomatch h⟩

/-- An issue does not read a register: the record carries the operand. -/
theorem issueAndAdvance_writeX (p p' : PEId) (r : TlbiRecord) (s : State) (j : Reg) (v : DWord) :
    issueAndAdvance p r (s.modifyPE p' fun pe => pe.writeX j v) =
      (issueAndAdvance p r s).modifyPE p' fun pe => pe.writeX j v := by
  have hpes : (issueAndAdvance p r (s.modifyPE p' fun pe => pe.writeX j v)).pes =
      ((issueAndAdvance p r s).modifyPE p' fun pe => pe.writeX j v).pes :=
    List.ext_getElem? fun q => by
      rw [(issueAndAdvance_spec p r _).2.2, State.modifyPE_getElem?, State.modifyPE_getElem?,
        (issueAndAdvance_spec p r s).2.2, appliedAtIssue_modifyPE, Option.map_map, Option.map_map]
      congr 1
      funext pe
      simp only [Function.comp_apply, State.modifyPE_cfg, State.modifyPE_tick]
      split_ifs <;> simp [PE.writeX_setTlb, PE.writeX_advancePc]
  rw [(issueAndAdvance_spec p r _).1, hpes, appliedAtIssue_modifyPE, (issueAndAdvance_spec p r s).1]
  rfl

/-- Settles O9: the stops read no register, and the record's operand reads the two the instruction names. -/
theorem otherRegistersDoNotMatter : Obligations.OtherRegistersDoNotMatter := by
  intro s u i p pe j v hexec hj h
  obtain ⟨hpres, hel0, htrap, rfl⟩ := exec_next_of_executes hexec h
  have hexec' := executes_modifyPE hexec fun q => q.writeX j v
  have hrecord : ∀ a op, issuedRecord s.cfg (pe.writeX j v) a op = issuedRecord s.cfg pe a op := fun a op => by
    rw [PE.writeX_eq]; rfl
  have hattr : issuedAttr s.cfg (pe.writeX j v) i.variant = issuedAttr s.cfg pe i.variant := by
    rw [PE.writeX_eq]; rfl
  rw [exec_eq_next hexec' hpres (by rw [PE.writeX_eq]; exact hel0)
    (by rw [PE.writeX_eq]; cases i <;> exact htrap), operandOf_writeX pe _ _ j v hj, ← issueAndAdvance_writeX]
  rw [State.modifyPE_cfg, hattr, hrecord]

/-- A change of the executing PE that no stop and no part of the record reads changes nothing that is issued. -/
theorem exec_modifyPE_pending {i : Instr} {s : State} {p : PEId} {pe : PE} (f : PE → PE)
    (hexec : Claims.Executes s p pe) (hpres : Claims.Present s.cfg i) (hel0 : pe.el ≠ .el0) (hel : (f pe).el = pe.el)
    (htrap : ¬ (pe.el = .el1 ∧ Claims.TrapsFromEl1 s.cfg pe i))
    (htrap' : ¬ (pe.el = .el1 ∧ Claims.TrapsFromEl1 s.cfg (f pe) i))
    (hrecord : issuedRecord s.cfg (f pe) (issuedAttr s.cfg (f pe) i.variant) (operandOf (f pe) i.rt i.rt2) =
      issuedRecord s.cfg pe (issuedAttr s.cfg pe i.variant) (operandOf pe i.rt i.rt2)) :
    ∃ u u', exec i s = .next u ∧ exec i (s.modifyPE p f) = .next u' ∧ u'.pending = u.pending := by
  refine ⟨_, _, exec_eq_next hexec hpres hel0 htrap,
    exec_eq_next (executes_modifyPE hexec f) hpres (by rwa [hel]) (by rwa [hel]), ?_⟩
  rw [issueAndAdvance_pending, issueAndAdvance_pending, State.modifyPE_cfg, hrecord,
    appliedAtIssue_modifyPE]
  rfl

/-- A PE with other values in the fields that the traps, the broadcast and the exclusion of XS accesses read at EL1
(60_exceptions.md R110, R118). -/
def PE.setEl1Controls (ttlb fb fgten tlbivae1 fnxs fgtnxs : BitVec 1) (q : PE) : PE :=
  { q with
    hcrEl2 := { q.hcrEl2 with ttlb := ttlb, fb := fb }, scrEl3 := { q.scrEl3 with fgten := fgten }
    hfgitrEl2 := { tlbivae1 := tlbivae1 }, hcrxEl2 := { fnxs := fnxs, fgtnxs := fgtnxs } }

/-- Settles O24: above EL1 neither the record nor a stop reads one of the six fields. -/
theorem trapControlsDoNotMatterAboveEl1 : Obligations.TrapControlsDoNotMatterAboveEl1 := by
  intro i s u p pe ttlb fb fgten tlbivae1 fnxs fgtnxs hexec hel h
  obtain ⟨hpres, hel0, htrap, -⟩ := exec_next_of_executes hexec h
  have hne := ne_el1_of_el2_or_el3 hel
  have hattr : issuedAttr s.cfg (pe.setEl1Controls ttlb fb fgten tlbivae1 fnxs fgtnxs) i.variant =
      issuedAttr s.cfg pe i.variant := by
    cases i
    · exact (if_neg hne).trans (if_neg hne).symm
    · rfl
  have hrecord : ∀ a op, issuedRecord s.cfg (pe.setEl1Controls ttlb fb fgten tlbivae1 fnxs fgtnxs) a op =
      issuedRecord s.cfg pe a op := fun a op => (if_neg hne).trans (if_neg hne).symm
  obtain ⟨v, u', hv, hu', hpending⟩ := exec_modifyPE_pending (PE.setEl1Controls ttlb fb fgten tlbivae1 fnxs fgtnxs)
    hexec hpres hel0 rfl htrap (fun h => hne h.1) (by rw [hattr]; exact hrecord ..)
  obtain rfl : u = v := by simpa [h] using hv
  exact ⟨u', hu', hpending⟩

/-- With EL2 not enabled nothing traps. -/
theorem not_trapsFromEl1_of_el2_disabled {c : Config} {pe : PE} (h : el2Enabled c pe = false) (i : Instr) :
    ¬ Claims.TrapsFromEl1 c pe i := by
  cases i <;> simp [Claims.TrapsFromEl1, h]

/-- With EL2 not enabled the record at EL1 reads no control field but those of the Security state and `attr`. -/
theorem recordAtEL1_of_el2_disabled {c : Config} {pe : PE} (h : el2Enabled c pe = false) (a : TlbiAttr) (op : Operand) :
    recordAtEL1 c pe a op =
      { security := Claims.security c pe, regime := .el10, vmid := pe.vmidReads, shareability := .nsh
        level := .any, attr := a, op := op } := by
  simp [recordAtEL1_eq, h]

/-- Settles O25: each of the five fields is read under `EL2Enabled()` only. -/
theorem el2ControlsDoNotMatterWhenDisabled : Obligations.El2ControlsDoNotMatterWhenDisabled := by
  intro i s p pe ttlb fb fgten tlbivae1 fgtnxs hexec hel hen hpres
  have hel' : (pe.setEl1Controls ttlb fb fgten tlbivae1 pe.hcrxEl2.fnxs fgtnxs).el = .el1 := hel
  have hen' : el2Enabled s.cfg (pe.setEl1Controls ttlb fb fgten tlbivae1 pe.hcrxEl2.fnxs fgtnxs) = false := hen
  refine exec_modifyPE_pending (fun q => q.setEl1Controls ttlb fb fgten tlbivae1 q.hcrxEl2.fnxs fgtnxs) hexec hpres
    (by rw [hel]; decide) rfl (fun h => not_trapsFromEl1_of_el2_disabled hen i h.2)
    (fun h => not_trapsFromEl1_of_el2_disabled hen' i h.2) ?_
  rw [issuedRecord_of_el1 hel, issuedRecord_of_el1 hel', recordAtEL1_of_el2_disabled hen,
    recordAtEL1_of_el2_disabled hen']
  rfl

end Sys2Proof.Machine

/-! ## Proofs: the fetch

`Memory.readBytes` finds the bytes that are there and nothing where one is missing; `fetch` then answers as `decode`
does, and a turn of a PE answers as the fetch does. -/

namespace Sys2Proof.Machine

/-! ### Bytes in memory -/

theorem add_one_add_ofNat (a : Addr) (k : Nat) : a + 1#64 + BitVec.ofNat 64 k = a + BitVec.ofNat 64 (k + 1) := by
  rw [BitVec.add_assoc, ← BitVec.ofNat_add, Nat.add_comm]

theorem Memory.readBytes_eq_some {m : Memory} {bs : List Byte} {a : Addr}
    (h : ∀ (k : Nat) (hk : k < bs.length), m.read (a + BitVec.ofNat 64 k) = some bs[k]) :
    m.readBytes a bs.length = some bs := by
  induction bs generalizing a with
  | nil => rfl
  | cons b rest ih =>
    have hb : m.read a = some b := by simpa using h 0 (Nat.succ_pos _)
    have hrest : m.readBytes (a + 1#64) rest.length = some rest := ih fun k hk => by
      rw [add_one_add_ofNat]
      exact h (k + 1) (Nat.succ_lt_succ hk)
    simp only [List.length_cons, Memory.readBytes, hb, hrest]

theorem Memory.readBytes_eq_none {m : Memory} {n k : Nat} {a : Addr} (hk : k < n)
    (h : m.read (a + BitVec.ofNat 64 k) = none) : m.readBytes a n = none := by
  induction n generalizing a k with
  | zero => exact absurd hk (Nat.not_lt_zero k)
  | succ n ih =>
    cases k with
    | zero =>
      have ha : m.read a = none := by simpa using h
      simp only [Memory.readBytes, ha]
    | succ k =>
      have hrest : m.readBytes (a + 1#64) n = none := ih (Nat.lt_of_succ_lt_succ hk) (by rwa [add_one_add_ofNat])
      simp only [Memory.readBytes, hrest]
      cases m.read a <;> rfl

/-- Bytes written from `a` on are not at any other address. -/
theorem Memory.read_writeBytes_of_ne {m : Memory} {a c : Addr} {bs : List Byte}
    (h : ∀ k < bs.length, c ≠ a + BitVec.ofNat 64 k) : (m.writeBytes a bs).read c = m.read c := by
  induction bs generalizing m a with
  | nil => rfl
  | cons b rest ih =>
    have hc : c ≠ a := by simpa using h 0 (Nat.succ_pos _)
    rw [Memory.writeBytes, ih fun k hk => by rw [add_one_add_ofNat]; exact h (k + 1) (Nat.succ_lt_succ hk),
      Memory.read_write, if_neg hc]

/-- Bytes written to memory are read back, where they do not run over themselves. -/
theorem Memory.readBytes_writeBytes (m : Memory) (a : Addr) {bs : List Byte} (h : bs.length ≤ 2 ^ 64) :
    (m.writeBytes a bs).readBytes a bs.length = some bs := by
  induction bs generalizing m a with
  | nil => rfl
  | cons b rest ih =>
    have hb : (m.writeBytes a (b :: rest)).read a = some b := by
      rw [Memory.writeBytes, Memory.read_writeBytes_of_ne, Memory.read_write, if_pos rfl]
      intro k hk heq
      rw [add_one_add_ofNat] at heq
      have hk' : k + 1 < 2 ^ 64 := by simp only [List.length_cons] at h; omega
      have := congrArg BitVec.toNat heq
      rw [BitVec.toNat_add, BitVec.toNat_ofNat, Nat.mod_eq_of_lt hk'] at this
      have := a.isLt
      omega
    have hrest := ih (m.write a b) (a + 1#64) (by simp only [List.length_cons] at h; omega)
    simp only [List.length_cons, Memory.readBytes, hb]
    rw [Memory.writeBytes, hrest]

theorem Memory.readBytes_four {m : Memory} {a : Addr} {b0 b1 b2 b3 : Byte} (h0 : m.read a = some b0)
    (h1 : m.read (a + 1#64) = some b1) (h2 : m.read (a + 2#64) = some b2) (h3 : m.read (a + 3#64) = some b3) :
    m.readBytes a 4 = some [b0, b1, b2, b3] := by
  refine Memory.readBytes_eq_some (bs := [b0, b1, b2, b3]) fun k hk => ?_
  match k, hk with
  | 0, _ => simpa using h0
  | 1, _ => exact h1
  | 2, _ => exact h2
  | 3, _ => exact h3

/-! ### The fetch and the turn of a PE -/

/-- Two ways to say that `pc` is a multiple of 4 (10_state.md R13). -/
theorem extractLsb'_eq_zero_iff (pc : Addr) : pc.extractLsb' 0 2 = 0#2 ↔ pc.toNat % 4 = 0 := by
  simp [BitVec.toNat_eq]

section
variable {c : Config} {m : Memory} {pc : Addr} {bs : List Byte}

theorem fetch_of_misaligned (h : pc.toNat % 4 ≠ 0) : fetch c m pc = .refused (.misalignedPc pc) :=
  if_neg (mt (extractLsb'_eq_zero_iff pc).1 h)

variable (halign : pc.toNat % 4 = 0)
include halign

theorem fetch_of_unwritten (h : m.readBytes pc 4 = none) : fetch c m pc = .fault (.fetchUnwritten pc) := by
  simp only [fetch, (extractLsb'_eq_zero_iff pc).2 halign, h, if_true]

theorem fetch_of_decode_ok {i : Instr} {rest : List Byte} (h : m.readBytes pc 4 = some bs)
    (hd : decode c.wordLayout c.pairRule bs = .ok (i, rest)) : fetch c m pc = .instr i := by
  simp only [fetch, (extractLsb'_eq_zero_iff pc).2 halign, h, hd, if_true]

theorem fetch_of_decode_error {e : DecodeReject} (h : m.readBytes pc 4 = some bs)
    (hd : decode c.wordLayout c.pairRule bs = .error e) : fetch c m pc = refusalOf pc e := by
  simp only [fetch, (extractLsb'_eq_zero_iff pc).2 halign, h, hd, if_true]

end

section
variable {s : State} {p : PEId} {pe : PE} (hexec : Claims.Executes s p pe)
include hexec

theorem step_of_fetch_instr {i : Instr} (h : fetch s.cfg s.mem pe.pc = .instr i) : step s = passTurn (exec i s) := by
  simp only [step, hexec.1, hexec.2, h]

theorem step_of_fetch_fault {f : Fault} (h : fetch s.cfg s.mem pe.pc = .fault f) : step s = .fault f := by
  simp only [step, hexec.1, hexec.2, h]

theorem step_of_fetch_refused {r : Refusal} (h : fetch s.cfg s.mem pe.pc = .refused r) : step s = .refused r := by
  simp only [step, hexec.1, hexec.2, h]

end

/-- Four bytes decode as the word they make. -/
theorem decode_four (l : WordLayout) (rule : PairRule) (b0 b1 b2 b3 : Byte) :
    decode l rule [b0, b1, b2, b3] = (decodeWord l rule (b3 ++ b2 ++ b1 ++ b0)).map fun i => (i, []) := by
  have h := decode_bytesOfWord_append l rule (wordOfBytes b0 b1 b2 b3) []
  rwa [bytesOfWord_wordOfBytes] at h

/-- Settles O36: the fetch finds the instruction, and the turn is `exec` of it. -/
theorem stepRunsTheDecodedInstruction : Obligations.StepRunsTheDecodedInstruction := by
  intro s p pe i b0 b1 b2 b3 hexec halign h0 h1 h2 h3 hd
  have hfetch : fetch s.cfg s.mem pe.pc = .instr i :=
    fetch_of_decode_ok halign (Memory.readBytes_four h0 h1 h2 h3) (by rw [decode_four, hd]; rfl)
  rw [step_of_fetch_instr hexec hfetch]
  cases exec i s <;> rfl

/-- Settles O37: each stop is the fetch's. -/
theorem stepStopsWhereNoInstructionIs : Obligations.StepStopsWhereNoInstructionIs := by
  intro s p pe hexec
  refine ⟨fun h => step_of_fetch_refused hexec (fetch_of_misaligned h), fun halign => ⟨fun k hk h => ?_, ?_⟩⟩
  · exact step_of_fetch_fault hexec (fetch_of_unwritten halign (Memory.readBytes_eq_none hk h))
  · intro b0 b1 b2 b3 h0 h1 h2 h3 w
    have hfetch : ∀ e, decodeWord s.cfg.wordLayout s.cfg.pairRule (b3 ++ b2 ++ b1 ++ b0) = .error e →
        fetch s.cfg s.mem pe.pc = refusalOf pe.pc e := fun e hd =>
      fetch_of_decode_error halign (Memory.readBytes_four h0 h1 h2 h3) (by rw [decode_four, hd]; rfl)
    exact ⟨fun hd => step_of_fetch_refused hexec (hfetch _ hd), fun hd => step_of_fetch_refused hexec (hfetch _ hd)⟩

/-! ### A placed word -/

/-- The fetching PE is a PE of the machine, if there is one. -/
theorem exists_fetchingPE {s : State} (h : 0 < s.pes.length) : ∃ pe, s.pes[fetchingPE s]? = some pe := by
  unfold fetchingPE
  split
  · next p pe he => exact ⟨pe, ((State.executing_eq_some s p pe).1 he).2⟩
  · exact ⟨_, List.getElem?_eq_getElem h⟩

/-- `pc` rounded down to a multiple of 4. -/
theorem and_not_three_mod_four (pc : Addr) : (pc &&& ~~~3#64).toNat % 4 = 0 := by
  rw [← extractLsb'_eq_zero_iff]
  have hlow : (3#64).extractLsb' 0 2 = BitVec.allOnes 2 := by decide
  rw [BitVec.extractLsb'_and, BitVec.extractLsb'_not_of_lt (by decide), hlow]
  simp

/-- What placing a word leaves: the PE's turn, its aligned `pc`, and the word's bytes there (log 20). -/
theorem executes_placeWord {s : State} {p : PEId} {pe : PE} (h : s.pes[p]? = some pe) (w : Word) :
    Claims.Executes (placeWord s p w) p (pe.setPc (pe.pc &&& ~~~3#64)) ∧
      (placeWord s p w).mem = s.mem.writeBytes (pe.pc &&& ~~~3#64) (bytesOfWord w) ∧
      (placeWord s p w).cfg = s.cfg := by
  simp [placeWord, h, Claims.Executes]

/-- A word of the opcode table decodes as its four bytes do. -/
theorem decodeTableWord_eq_some {nbits w : Nat} {i : Instr} (h : decodeTableWord nbits w = some i) :
    ∃ rest, decode WordLayout.default PairRule.default (bytesOfWord (BitVec.ofNat 32 (w % 2 ^ nbits))) =
      .ok (i, rest) := by
  unfold decodeTableWord at h
  split at h
  · next j rest hd =>
    obtain rfl : j = i := by simpa using h
    exact ⟨rest, hd⟩
  · cases h

/-- Settles O38: the word's four bytes are at the aligned `pc` of the PE that gets the turn, and the fetch reads them
back. -/
theorem placedWordRunsNext : Obligations.PlacedWordRunsNext := by
  intro s w i hpos hlayout hrule hd
  obtain ⟨pe, hpe⟩ := exists_fetchingPE hpos
  obtain ⟨rest, hdecode⟩ := decodeTableWord_eq_some hd
  obtain ⟨hexec, hmem, hcfg⟩ := executes_placeWord hpe (BitVec.ofNat 32 (w % 2 ^ 32))
  have hread : (placeWord s (fetchingPE s) (BitVec.ofNat 32 (w % 2 ^ 32))).mem.readBytes (pe.pc &&& ~~~3#64) 4 =
      some (bytesOfWord (BitVec.ofNat 32 (w % 2 ^ 32))) := by
    rw [hmem]
    exact Memory.readBytes_writeBytes _ _ (bs := bytesOfWord _) (by simp [bytesOfWord])
  refine step_of_fetch_instr hexec (fetch_of_decode_ok (and_not_three_mod_four pe.pc) hread (rest := rest) ?_)
  rw [hcfg, hlayout, hrule]
  exact hdecode

end Sys2Proof.Machine
